-- ==== Sys2Proof/Word.lean ====
section
/-! DEFINITION. The word types of the machine: 12-bit registers, data words and addresses, 20-bit instruction words,
3-bit register numbers (00_scope.md R6, R7). -/

namespace Sys2Proof

/-- A general register's content or a data-memory word: 12 bits (R6 `XLEN`, R21, R28). -/
abbrev Word := BitVec 12

/-- An address of either memory, and the content of the `pc`: 12 bits, counting words (R6 `PCLEN`, R24, R40). -/
abbrev Addr := BitVec 12

/-- An instruction word `ir[19:0]`: 20 bits (R6 `ILEN`, R60, R61). -/
abbrev IWord := BitVec 20

/-- The number of a general register, 0 to 7 (R6 `NREG`, R21). -/
abbrev Reg := Fin 8

end Sys2Proof
end

