-- ==== Sys2Proof/Syntax.lean ====
section
/-! DEFINITION. The 17 instructions (00_scope.md R2), one constructor for each row of spec/opcode_table.json, with the
operands and their order as in the Format lines of 30_encoding.md R66. An immediate is held as `Decode` of R75 gives it:
already sign-extended to 12 bits. -/

namespace Sys2Proof

/-- An instruction with its operands (R66, R75). -/
inductive Instr where
  | add (rsd rt : Reg)
  | addi (rsd : Reg) (imm : Word)
  | andix (rd rs : Reg) (imm : Word)
  | andx (rd rs rt : Reg)
  | bez (ra rb : Reg)
  | bltz (ra rb : Reg)
  | exch (exch addr : Reg)
  | orix (rd rs : Reg) (imm : Word)
  | orx (rd rs rt : Reg)
  | rbez (ra rb : Reg)
  | rbltz (ra rb : Reg)
  | rl (rsd : Reg)
  | rr (rsd : Reg)
  | sllx (rd rs : Reg)
  | srax (rd rs : Reg)
  | xor (rsd rs : Reg)
  | xori (rsd : Reg) (imm : Word)
  deriving DecidableEq, Repr

/-- The seventeen assigned opcodes of R68, by name. -/
inductive Opcode where
  | add | addi | andix | andx | bez | bltz | exch | orix | orx | rbez | rbltz | rl | rr | sllx | srax | xor | xori
  deriving DecidableEq, Repr

end Sys2Proof
end

