-- ==== Sys2Proof/WellFormed.lean ====
section
/-! DEFINITION. Which instructions of `Instr` have an encoding. Register numbers are in range by their type; the one thing
to check is an immediate: it must be a sign-extended 9-bit value (30_encoding.md R67). -/

namespace Sys2Proof

/-- R67: "The values an immediate can take are therefore the 12-bit patterns 0x000..0x0FF (0 to 255) and 0xF00..0xFFF". -/
def immInRange (imm : Word) : Bool := decide (imm.toNat ≤ 0x0FF ∨ 0xF00 ≤ imm.toNat)

/-- An instruction all of whose operands are in range, so that it has exactly one word (R75). -/
def Instr.wf : Instr → Bool
  | .addi _ imm => immInRange imm
  | .andix _ _ imm => immInRange imm
  | .orix _ _ imm => immInRange imm
  | .xori _ imm => immInRange imm
  | .add _ _ => true
  | .andx _ _ _ => true
  | .bez _ _ => true
  | .bltz _ _ => true
  | .exch _ _ => true
  | .orx _ _ _ => true
  | .rbez _ _ => true
  | .rbltz _ _ => true
  | .rl _ => true
  | .rr _ => true
  | .sllx _ _ => true
  | .srax _ _ => true
  | .xor _ _ => true

end Sys2Proof
end

