-- ==== Sys2Proof/Decode.lean ====
section
/-! DEFINITION. Decoding a 20-bit word (30_encoding.md R75), total and rejecting by name, and after it the encoder
(R66, R79). Both read the one table of opcodes (R68) and the one layout of fields (R62). -/

namespace Sys2Proof

/-- R68: the five bits `ir[19:15]` of each assigned opcode. -/
def Opcode.bits : Opcode → BitVec 5
  | .addi => 0b00001
  | .xori => 0b00010
  | .rl => 0b00100
  | .rr => 0b00101
  | .add => 0b01001
  | .xor => 0b01010
  | .andix => 0b10000
  | .orix => 0b10001
  | .exch => 0b10011
  | .bez => 0b10100
  | .bltz => 0b10101
  | .rbez => 0b10110
  | .rbltz => 0b10111
  | .andx => 0b11000
  | .orx => 0b11001
  | .sllx => 0b11100
  | .srax => 0b11110

/-- The assigned opcodes, in the order of the table of R68. -/
def Opcode.all : List Opcode :=
  [.addi, .xori, .rl, .rr, .add, .xor, .andix, .orix, .exch, .bez, .bltz, .rbez, .rbltz, .andx, .orx, .sllx, .srax]

/-- R68, read from bits to name: `none` for the fifteen unassigned values (R72). -/
def Opcode.ofBits (b : BitVec 5) : Option Opcode := Opcode.all.find? fun o => o.bits == b

/-- `op` = `ir[19:15]` (R62). -/
def opField (ir : IWord) : BitVec 5 := ir.extractLsb' 15 5

/-- A 3-bit register field as a register number. -/
def regOfBits (b : BitVec 3) : Reg := ⟨b.toNat, b.isLt⟩

/-- A register number as the 3 bits of a register field. -/
def regBits (r : Reg) : BitVec 3 := BitVec.ofNat 3 r.val

/-- `fa` = `ir[14:12]` (R62). -/
def faField (ir : IWord) : Reg := regOfBits (ir.extractLsb' 12 3)

/-- `fb` = `ir[11:9]` (R62). -/
def fbField (ir : IWord) : Reg := regOfBits (ir.extractLsb' 9 3)

/-- `fc` = `ir[8:6]` (R62). -/
def fcField (ir : IWord) : Reg := regOfBits (ir.extractLsb' 6 3)

/-- `fz` = `ir[5:0]`, the zero field of the register format (R62). -/
def fzField (ir : IWord) : BitVec 6 := ir.extractLsb' 0 6

/-- `imm9` = `ir[8:0]` (R62). -/
def imm9Field (ir : IWord) : BitVec 9 := ir.extractLsb' 0 9

/-- `sext_12` of R9 and R67: the 9-bit value with its bit 8 copied into bits 11, 10 and 9. -/
def sext12 (v : BitVec 9) : Word := v.signExtend 12

/-- Why a word is no instruction (R173): the three ways the spec lists. -/
inductive Illegal where
  /-- `ir[19:15]` is one of the fifteen unassigned values (R72). -/
  | unassignedOpcode
  /-- A field the table fills with zeros is not zero (R71). -/
  | nonzeroZeroField
  /-- The two copies of `rsd` differ (R70). -/
  | copiesDiffer
  deriving DecidableEq, Repr

/-- A word whose zero field `z` must be zero (R71). -/
def needZero (z : Bool) (k : Except Illegal Instr) : Except Illegal Instr :=
  if z then k else .error .nonzeroZeroField

/-- A word that holds `rsd` in both `fa` and `fb` (R70). -/
def needCopies (ir : IWord) (k : Except Illegal Instr) : Except Illegal Instr :=
  if faField ir = fbField ir then k else .error .copiesDiffer

/-- `Decode` of R75: a word as the instruction it encodes, or the reason it encodes none. -/
def decode (ir : IWord) : Except Illegal Instr :=
  match Opcode.ofBits (opField ir) with
  | none => .error .unassignedOpcode
  | some .add => needZero (fzField ir == 0) (needCopies ir (.ok (.add (faField ir) (fcField ir))))
  | some .xor => needZero (fzField ir == 0) (needCopies ir (.ok (.xor (faField ir) (fcField ir))))
  | some .addi => needCopies ir (.ok (.addi (faField ir) (sext12 (imm9Field ir))))
  | some .xori => needCopies ir (.ok (.xori (faField ir) (sext12 (imm9Field ir))))
  | some .andix => .ok (.andix (faField ir) (fbField ir) (sext12 (imm9Field ir)))
  | some .orix => .ok (.orix (faField ir) (fbField ir) (sext12 (imm9Field ir)))
  | some .andx => needZero (fzField ir == 0) (.ok (.andx (faField ir) (fbField ir) (fcField ir)))
  | some .orx => needZero (fzField ir == 0) (.ok (.orx (faField ir) (fbField ir) (fcField ir)))
  | some .rl => needZero (imm9Field ir == 0) (needCopies ir (.ok (.rl (faField ir))))
  | some .rr => needZero (imm9Field ir == 0) (needCopies ir (.ok (.rr (faField ir))))
  | some .sllx => needZero (imm9Field ir == 0) (.ok (.sllx (faField ir) (fbField ir)))
  | some .srax => needZero (imm9Field ir == 0) (.ok (.srax (faField ir) (fbField ir)))
  | some .exch => needZero (imm9Field ir == 0) (.ok (.exch (faField ir) (fbField ir)))
  | some .bez => needZero (imm9Field ir == 0) (.ok (.bez (faField ir) (fbField ir)))
  | some .bltz => needZero (imm9Field ir == 0) (.ok (.bltz (faField ir) (fbField ir)))
  | some .rbez => needZero (imm9Field ir == 0) (.ok (.rbez (faField ir) (fbField ir)))
  | some .rbltz => needZero (imm9Field ir == 0) (.ok (.rbltz (faField ir) (fbField ir)))

/-! ## The encoder -/

/-- Format REG (R63): `op, fa, fb, fc` and six zero bits. -/
def packReg (o : Opcode) (fa fb fc : Reg) : IWord :=
  o.bits ++ (regBits fa ++ (regBits fb ++ (regBits fc ++ (0 : BitVec 6))))

/-- Formats I9 and Z9 (R64, R65): `op, fa, fb, imm9`. -/
def packImm (o : Opcode) (fa fb : Reg) (imm9 : BitVec 9) : IWord :=
  o.bits ++ (regBits fa ++ (regBits fb ++ imm9))

/-- The 9-bit field of a sign-extended immediate (R67, R79). -/
def immField (imm : Word) : BitVec 9 := imm.setWidth 9

/-- The word of an instruction (R66, R79): `rsd` goes into both `fa` and `fb`, every zero field is zero. -/
def encode : Instr → IWord
  | .add rsd rt => packReg .add rsd rsd rt
  | .addi rsd imm => packImm .addi rsd rsd (immField imm)
  | .andix rd rs imm => packImm .andix rd rs (immField imm)
  | .andx rd rs rt => packReg .andx rd rs rt
  | .bez ra rb => packImm .bez ra rb 0
  | .bltz ra rb => packImm .bltz ra rb 0
  | .exch exch addr => packImm .exch exch addr 0
  | .orix rd rs imm => packImm .orix rd rs (immField imm)
  | .orx rd rs rt => packReg .orx rd rs rt
  | .rbez ra rb => packImm .rbez ra rb 0
  | .rbltz ra rb => packImm .rbltz ra rb 0
  | .rl rsd => packReg .rl rsd rsd 0
  | .rr rsd => packReg .rr rsd rsd 0
  | .sllx rd rs => packReg .sllx rd rs 0
  | .srax rd rs => packReg .srax rd rs 0
  | .xor rsd rs => packReg .xor rsd rsd rs
  | .xori rsd imm => packImm .xori rsd rsd (immField imm)

/-! ## The host's container -/

/-- The instruction word in the low `nbits` bits of `w`, bit 0 the least significant: `none` when a bit above the twenty of
an instruction word is set, since no such word exists (R60; DESIGN CHOICE, log 20, safe). -/
def tableWord (nbits w : Nat) : Option IWord :=
  if w % 2 ^ nbits < 2 ^ 20 then some (BitVec.ofNat 20 (w % 2 ^ nbits)) else none

/-- What `decode` reads from the word `w` of an opcode-table row of `nbits` bits. One instruction is one word at one
address (R60), so there is no byte order and nothing to lay out (R43). -/
def decodeTableWord (nbits w : Nat) : Option Instr :=
  match tableWord nbits w with
  | none => none
  | some ir => (decode ir).toOption

end Sys2Proof
end

