-- ==== Sys2Proof/Machine/Flags.lean ====
section
/-! DEFINITION. The machine has no flags and no condition codes: no instruction produces a carry, overflow, zero or negative
indication (10_state.md R31). What takes their place are the two tests a branch makes on a register directly. -/

namespace Sys2Proof.Machine

/-- The condition of BEZ and RBEZ (R142, R144): all 12 bits are zero. -/
def isZero (v : Word) : Bool := v == 0

/-- The condition of BLTZ and RBLTZ (R143, R145): the sign bit, bit 11, is set. -/
def isNegative (v : Word) : Bool := v.getLsbD 11

end Sys2Proof.Machine
end

