-- ==== Sys2Proof/Config.lean ====
section
/-! DEFINITION. What one machine fixes: the parameters of 00_scope.md R6 that the spec gives a value, and the values this
model names for the ones the spec calls OPEN (notes/assumptions 2 to 6). The spec leaves no result open (R99), so there
is no free value here. -/

namespace Sys2Proof.Config

/-- R6 `DMEM_WORDS`: how many data-memory addresses there are. -/
def dataWords : Nat := 4096

/-- R6 `IMEM_WORDS`: how many instruction-memory addresses there are. -/
def instrWords : Nat := 4096

/-- What a data-memory address holds that nothing has written and no `DMEM_INIT` lists: 0, the spec's default (R6, R36).
DESIGN CHOICE (log 2), unsafe: the source does not say that hardware clears memory. -/
def unwrittenWord : Word := 0

/-- The content of every general register at reset: 0, the spec's default `GPR_INIT` (R6, R36).
DESIGN CHOICE (log 3), unsafe: the source does not say that hardware clears registers. -/
def resetRegister : Word := 0

/-- `ENTRY_PC` at reset. The spec leaves it OPEN (R6); 0 is where every worked program of the spec starts
(95_test_vectors.md S2 to S6). DESIGN CHOICE (log 4), unsafe. -/
def resetEntryPc : Addr := 0

/-- `FINISH_PC` at reset. The spec leaves it OPEN (R6); 4095 makes `ENTRY_PC .. FINISH_PC - 1` (R198) the longest range.
DESIGN CHOICE (log 5), unsafe. -/
def resetFinishPc : Addr := 4095

end Sys2Proof.Config
end

