-- ==== Sys2Proof/Machine/State.lean ====
section
/-! DEFINITION. The state of the machine as plain data (10_state.md R20 to R36), the faults and the refusals of a step, the
parameters of a run, and the state at launch and at reset. -/

namespace Sys2Proof.Machine

/-- The direction bit `dir` (R27): 0 is forward, 1 is reverse. The bit lives inside the machine only: "no instruction reads
it into a register or writes it from one". -/
inductive Direction where
  | forward
  | reverse
  deriving DecidableEq, Repr

/-- The four faults of 60_exceptions.md R172 with what each records. A fault ends the run (R171); all are safe: the model
stops where the source gives no meaning, so no claim about a run that goes on can rest on one (log 8, log 18). -/
inductive Fault where
  /-- Code 1. Raised by the fetch of a step when `PROGRAM` has no word at `addr` (R174). Safe. -/
  | noInstruction (addr : Addr)
  /-- Code 2. Raised by the decode of a step when the word `ir` at `addr` is no legal encoding (R173). Safe. -/
  | illegalInstruction (addr : Addr) (ir : IWord)
  /-- Code 3. Raised by a reverse step on an irreversible form, the word `ir` at `addr` (R175). Safe. -/
  | irreversibleForm (addr : Addr) (ir : IWord)
  /-- Code 4. Raised by a taken branch at `addr` whose `target` does not hold its twin (R176). Safe. -/
  | unpairedBranchTarget (addr target : Addr)
  deriving DecidableEq, Repr

/-- Why a step has no meaning although nothing went wrong. -/
inductive Refusal where
  /-- Raised by `exec` for an instruction that has no meaning yet; no arm of this model does so. Safe. -/
  | notModelled (mnemonic : String)
  /-- Raised by `step` on a machine whose status is not `Running`: "Only a `Running` machine takes a step" (R30, R91,
  log 9). Safe. -/
  | notRunning
  deriving DecidableEq, Repr

/-- The run status of R30. -/
inductive RunStatus where
  | running
  | finished
  | faulted (f : Fault)
  deriving DecidableEq, Repr

/-- Data memory `DMEM` (R28, R40): pairs of an address and a 12-bit word, addresses strictly rising and below 4096, no
entry equal to what an unlisted address holds (log 1, log 2). `Memory.wf` in Ops.lean says so. -/
abbrev Memory := List (Nat × Word)

/-- Instruction memory `PROGRAM` (R29, R47): a partial map, as pairs of an address and a 20-bit word, addresses strictly
rising and below 4096. An unlisted address has no word. `Program.wf` in Ops.lean says so. -/
abbrev Program := List (Nat × IWord)

/-- The state of the machine: the four components of R20, the run status of R30, and the three run parameters a step
reads (R35), which no step writes (log 7). -/
structure State where
  /-- `x[0]` .. `x[7]` (R21); none is hardwired (R22). -/
  gpr : Vector Word 8
  /-- The program counter (R24). -/
  pc : Addr
  /-- The direction bit (R27). -/
  dir : Direction
  /-- Data memory (R28). -/
  dmem : Memory
  /-- The run status (R30). -/
  status : RunStatus
  /-- `PROGRAM`, the content of instruction memory (R29). -/
  program : Program
  /-- `ENTRY_PC` (R97). -/
  entryPc : Addr
  /-- `FINISH_PC` (R97). -/
  finishPc : Addr
  deriving DecidableEq, Repr

/-- The five parameters of a run (R35, R101), with the values this model names for the ones left OPEN (log 2 to log 6). -/
structure RunParams where
  program : Program := []
  dmemInit : Memory := []
  gprInit : Vector Word 8 := Vector.replicate 8 Config.resetRegister
  entryPc : Addr := Config.resetEntryPc
  finishPc : Addr := Config.resetFinishPc
  deriving DecidableEq, Repr

/-- The state at the launch of a run with given parameters (R36, R190). -/
def State.launch (p : RunParams) : State where
  gpr := p.gprInit
  pc := p.entryPc
  dir := .forward
  dmem := p.dmemInit
  status := .running
  program := p.program
  entryPc := p.entryPc
  finishPc := p.finishPc

/-- The machine right after reset: the launch with every parameter at its default (R36, R190). -/
def State.reset : State := State.launch {}

end Sys2Proof.Machine
end

