-- ==== Sys2Proof/Machine/Operands.lean ====
section
/-! DEFINITION. The values the instructions compute from 12-bit operands (41_inplace.md to 43_shift_rotate.md), and which
instructions are irreversible forms (40_execution.md R95). Operands are registers and sign-extended immediates only. -/

namespace Sys2Proof.Machine

/-- ADD and ADDI (R110, R111, R114): the sum modulo 4096 forward, the difference modulo 4096 in reverse. -/
def stepSum : Direction → Word → Word → Word
  | .forward, a, b => a + b
  | .reverse, a, b => a - b

/-- `{v[10:0], v[11]}` (R130): rotate left by one. -/
def rotateLeftOne (v : Word) : Word := v.extractLsb' 0 11 ++ v.extractLsb' 11 1

/-- `{v[0], v[11:1]}` (R131): rotate right by one. -/
def rotateRightOne (v : Word) : Word := v.extractLsb' 0 1 ++ v.extractLsb' 1 11

/-- RL (R130): left forward, right in reverse. -/
def stepRotateLeft : Direction → Word → Word
  | .forward, v => rotateLeftOne v
  | .reverse, v => rotateRightOne v

/-- RR (R131): right forward, left in reverse. -/
def stepRotateRight : Direction → Word → Word
  | .forward, v => rotateRightOne v
  | .reverse, v => rotateLeftOne v

/-- `{v[10:0], 0}` (R132): shift left by one, zero into bit 0. -/
def shiftLeftOne (v : Word) : Word := v.extractLsb' 0 11 ++ (0 : BitVec 1)

/-- `{v[11], v[11:1]}` (R133): shift right by one, bit 11 kept. -/
def shiftRightArithOne (v : Word) : Word := v.extractLsb' 11 1 ++ v.extractLsb' 1 11

/-- `ir[16]`, the bit in which a branch and its reversing variant differ (R69, R141). -/
def reversingBit : IWord := 0x10000

end Sys2Proof.Machine

/-- `IrreversibleForm(I)` (40_execution.md R95): the destination register is one of the source registers. The test is on
register numbers only. -/
def Sys2Proof.Instr.irreversibleForm : Sys2Proof.Instr → Bool
  | .add rsd rt => rsd == rt
  | .addi _ _ => false
  | .andix rd rs _ => rd == rs
  | .andx rd rs rt => rd == rs || rd == rt
  | .bez ra rb => ra == rb
  | .bltz ra rb => ra == rb
  | .exch re ra => re == ra
  | .orix rd rs _ => rd == rs
  | .orx rd rs rt => rd == rs || rd == rt
  | .rbez ra rb => ra == rb
  | .rbltz ra rb => ra == rb
  | .rl _ => false
  | .rr _ => false
  | .sllx rd rs => rd == rs
  | .srax rd rs => rd == rs
  | .xor rsd rs => rsd == rs
  | .xori _ _ => false
end

