-- ==== Sys2Proof/Machine/Ops.lean ====
section
/-! DEFINITION. The named operations over the state that the meanings share: registers, the two memories, the advance of
the `pc`, the ends of a step (raising a fault, completing), the exchanges of EXCH and of a taken branch, and what happens
around a step (the run status, `Rev`, the host's view). -/

namespace Sys2Proof.Machine

/-- How a step or an instruction ends. -/
abbrev Result := Host.Outcome State Fault Refusal

/-! ## Lists of cells by rising address -/

/-- The content of the cell at `k`, if one is listed. -/
def lookupCell {α : Type} (k : Nat) : List (Nat × α) → Option α
  | [] => none
  | (j, v) :: rest => if j = k then some v else lookupCell k rest

/-- The list with the cell at `k` set to `v`, in its place by address. -/
def insertCell {α : Type} (k : Nat) (v : α) : List (Nat × α) → List (Nat × α)
  | [] => [(k, v)]
  | (j, w) :: rest =>
    if k < j then (k, v) :: (j, w) :: rest
    else if k = j then (k, v) :: rest
    else (j, w) :: insertCell k v rest

/-- The list without a cell at `k`. -/
def eraseCell {α : Type} (k : Nat) : List (Nat × α) → List (Nat × α)
  | [] => []
  | (j, w) :: rest => if j = k then eraseCell k rest else (j, w) :: eraseCell k rest

/-- Addresses strictly rising. -/
abbrev risingCells {α : Type} (m : List (Nat × α)) : Prop := m.Pairwise fun c d => c.1 < d.1

/-! ## Data memory -/

/-- `MemRead(addr, 1)` (R41): every 12-bit address is valid. -/
def Memory.read (m : Memory) (a : Addr) : Word := (lookupCell a.toNat m).getD Config.unwrittenWord

/-- `MemWrite(addr, 1, v)` (R41), keeping the canonical form. -/
def Memory.write (m : Memory) (a : Addr) (v : Word) : Memory :=
  if v = Config.unwrittenWord then eraseCell a.toNat m else insertCell a.toNat v m

/-- The canonical form of data memory: addresses strictly rising, inside the 4096 words of R28, and no entry that holds
what an unlisted address holds. -/
abbrev Memory.wf (m : Memory) : Prop :=
  risingCells m ∧ ∀ c ∈ m, c.1 < Config.dataWords ∧ c.2 ≠ Config.unwrittenWord

/-! ## Instruction memory -/

/-- `Fetch(addr)` (R47): the word `PROGRAM` has at `addr`, if it has one. -/
def Program.fetch (p : Program) (a : Addr) : Option IWord := lookupCell a.toNat p

/-- A program with the word at `a` set: the host's loading, no instruction does it (R52). -/
def Program.load (p : Program) (a : Addr) (ir : IWord) : Program := insertCell a.toNat ir p

/-- The canonical form of instruction memory: addresses strictly rising, inside the 4096 words of R29. -/
abbrev Program.wf (p : Program) : Prop := risingCells p ∧ ∀ c ∈ p, c.1 < Config.instrWords

/-! ## Registers, memory and program of a state -/

/-- `x[r]` (R9). -/
def State.getReg (s : State) (r : Reg) : Word := s.gpr[r]

/-- `x[r] <- v` (R9); no register is hardwired (R22). -/
def State.setReg (s : State) (r : Reg) (v : Word) : State := { s with gpr := s.gpr.set r v }

/-- `DMEM[a]` (R41). -/
def State.readMem (s : State) (a : Addr) : Word := s.dmem.read a

/-- `DMEM[a] <- v` (R41). -/
def State.writeMem (s : State) (a : Addr) (v : Word) : State := { s with dmem := s.dmem.write a v }

/-- The word at an instruction address (R47). -/
def State.fetch (s : State) (a : Addr) : Option IWord := s.program.fetch a

/-- `pc <- a`. -/
def State.setPc (s : State) (a : Addr) : State := { s with pc := a }

/-! ## The direction bit and the advance of the pc -/

/-- `1 - dir` (R144). -/
def Direction.toggle : Direction → Direction
  | .forward => .reverse
  | .reverse => .forward

/-- `dir <- 1 - dir` (R144). -/
def State.toggleDir (s : State) : State := { s with dir := s.dir.toggle }

/-- The neighbour of an instruction address in a direction: `pc + 1` forward, `pc - 1` in reverse, modulo 4096
(R25, R26, R96). -/
def Direction.nextAddr : Direction → Addr → Addr
  | .forward, a => a + 1
  | .reverse, a => a - 1

/-- The advance that ends every step that does not fault (R96): it uses `dir` and `pc` as they are now. -/
def State.advance (s : State) : State := { s with pc := s.dir.nextAddr s.pc }

/-! ## How a step ends -/

/-- `raise` (R9, R171): the run stops with the fault. Nothing is saved and nothing else changes; there is no handler, no
vector and no return (R179, R180). -/
def raise (f : Fault) : Result := .fault f

/-- The end of an instruction that did not fault: the state it made, advanced (R91, R96). -/
def complete (s : State) : Result := .next s.advance

/-- The check for IrreversibleForm (R91, R175): on a reverse step, by register numbers only, before anything else the
instruction does. -/
def unlessIrreversible (i : Instr) (s : State) (k : Result) : Result :=
  if s.dir = .reverse ∧ i.irreversibleForm = true then raise (.irreversibleForm s.pc (encode i)) else k

/-! ## What the families share -/

/-- An instruction that writes `v` to `rd` and nothing else. -/
def writeResult (i : Instr) (rd : Reg) (v : Word) (s : State) : Result :=
  unlessIrreversible i s (complete (s.setReg rd v))

/-- An instruction that exclusive-ors `v` into `rd` (42_logic_xor.md, 43_shift_rotate.md): the same in both directions. -/
def accumulate (i : Instr) (rd : Reg) (v : Word) (s : State) : Result :=
  writeResult i rd (v ^^^ s.getReg rd) s

/-- The exchange of EXCH (R160): `x[r]` and `DMEM[a]` change places, both read before either is written. -/
def State.exchangeMem (s : State) (r : Reg) (a : Addr) : State :=
  (s.writeMem a (s.getReg r)).setReg r (s.readMem a)

/-- The exchange of a taken branch (R140): `x[ra]` and the `pc` change places, both read before either is written. -/
def State.exchangePc (s : State) (ra : Reg) : State :=
  (s.setReg ra s.pc).setPc (s.getReg ra)

/-- `Paired(a, T)` (R141) for a branch whose own word is `own`: instruction memory has a word at `t` and it agrees with
`own` in every bit except possibly `ir[16]`. -/
def State.paired (s : State) (own : IWord) (t : Addr) : Bool :=
  match s.fetch t with
  | none => false
  | some twin => twin ||| reversingBit == own ||| reversingBit

/-- The body of the four branches (R140, R142 to R145), the same in both directions: nothing but the advance when the
condition fails; when it holds, the pairing check, the exchange and, for a reversing branch, the toggle of `dir`. -/
def branch (i : Instr) (condition : Bool) (ra : Reg) (reversing : Bool) (s : State) : Result :=
  unlessIrreversible i s <|
    if condition then
      if s.paired (encode i) (s.getReg ra) then
        complete (if reversing then (s.exchangePc ra).toggleDir else s.exchangePc ra)
      else raise (.unpairedBranchTarget s.pc (s.getReg ra))
    else complete s

/-! ## Around a step -/

/-- `EndOfRun()` (R97): forward at `FINISH_PC`, or in reverse at `ENTRY_PC - 1`. -/
def State.endOfRun (s : State) : Bool :=
  match s.dir with
  | .forward => s.pc == s.finishPc
  | .reverse => s.pc == s.entryPc - 1

/-- `status <- Finished`; no other state changes (R91). -/
def State.finish (s : State) : State := { s with status := .finished }

/-- The state after an outcome, with the status the spec gives it: a fault is recorded and changes nothing else (R171); a
machine that takes no step stays as it is (R30). -/
def State.settle (s : State) : Result → State
  | .next t => t
  | .fault f => { s with status := .faulted f }
  | .refused _ => s

/-- The codes of R172 (labels for the model; no register holds them). -/
def Fault.code : Fault → Nat
  | .noInstruction _ => 1
  | .illegalInstruction _ _ => 2
  | .irreversibleForm _ _ => 3
  | .unpairedBranchTarget _ _ => 4

/-- `Rev(S)` of R100: the direction toggled and the `pc` one step back along the old direction. -/
def State.rev (s : State) : State :=
  { s with dir := s.dir.toggle, pc := s.dir.toggle.nextAddr s.pc }

/-- What a run hands to the host (R101): the registers, `pc`, `dir` and data memory. -/
structure HostView where
  gpr : Vector Word 8
  pc : Addr
  dir : Direction
  dmem : Memory
  deriving DecidableEq, Repr

/-- R101: after the run is `Finished` the host may read all registers, `pc`, `dir` and `DMEM`; a run that is `Running` or
`Faulted` hands nothing over. -/
def State.handover (s : State) : Option HostView :=
  match s.status with
  | .finished => some { gpr := s.gpr, pc := s.pc, dir := s.dir, dmem := s.dmem }
  | .running => none
  | .faulted _ => none

end Sys2Proof.Machine
end

