-- ==== Sys2Proof/Machine/Branch.lean ====
section
/-! DEFINITION. BEZ, BLTZ, RBEZ, RBLTZ (44_branch.md). -/

namespace Sys2Proof.Machine

/-- BEZ (R142). -/
def execBez (ra rb : Reg) (s : State) : Result :=
  branch (.bez ra rb) (isZero (s.getReg rb)) ra false s

/-- BLTZ (R143). -/
def execBltz (ra rb : Reg) (s : State) : Result :=
  branch (.bltz ra rb) (isNegative (s.getReg rb)) ra false s

/-- RBEZ (R144): `dir` toggles only when the branch is taken (90_conflicts.md C8). -/
def execRbez (ra rb : Reg) (s : State) : Result :=
  branch (.rbez ra rb) (isZero (s.getReg rb)) ra true s

/-- RBLTZ (R145): `dir` toggles only when the branch is taken (90_conflicts.md C8). -/
def execRbltz (ra rb : Reg) (s : State) : Result :=
  branch (.rbltz ra rb) (isNegative (s.getReg rb)) ra true s

end Sys2Proof.Machine
end

