-- ==== Sys2Proof/Machine/Exchange.lean ====
section
/-! DEFINITION. EXCH (45_exchange.md), the only instruction that reaches data memory (20_memory.md R42). -/

namespace Sys2Proof.Machine

/-- EXCH (R160, 90_conflicts.md C7): the effective address is the whole content of `addr` (R161). -/
def execExch (exch addr : Reg) (s : State) : Result :=
  unlessIrreversible (.exch exch addr) s (complete (s.exchangeMem exch (s.getReg addr)))

end Sys2Proof.Machine
end

