-- ==== Sys2Proof/Machine/Inplace.lean ====
section
/-! DEFINITION. ADD, ADDI, XOR, XORI (41_inplace.md): one register replaced by itself combined with a second operand. -/

namespace Sys2Proof.Machine

/-- ADD (R110). -/
def execAdd (rsd rt : Reg) (s : State) : Result :=
  writeResult (.add rsd rt) rsd (stepSum s.dir (s.getReg rsd) (s.getReg rt)) s

/-- ADDI (R111, 90_conflicts.md C1). -/
def execAddi (rsd : Reg) (imm : Word) (s : State) : Result :=
  writeResult (.addi rsd imm) rsd (stepSum s.dir (s.getReg rsd) imm) s

/-- XOR (R112). -/
def execXor (rsd rs : Reg) (s : State) : Result :=
  writeResult (.xor rsd rs) rsd (s.getReg rsd ^^^ s.getReg rs) s

/-- XORI (R113, 90_conflicts.md C5). -/
def execXori (rsd : Reg) (imm : Word) (s : State) : Result :=
  writeResult (.xori rsd imm) rsd (s.getReg rsd ^^^ imm) s

end Sys2Proof.Machine
end

