-- ==== Sys2Proof/Machine/LogicXor.lean ====
section
/-! DEFINITION. ANDX, ANDIX, ORX, ORIX (42_logic_xor.md): a logical result exclusive-ored into the destination. -/

namespace Sys2Proof.Machine

/-- ANDX (R120, 90_conflicts.md C3). -/
def execAndx (rd rs rt : Reg) (s : State) : Result :=
  accumulate (.andx rd rs rt) rd (s.getReg rs &&& s.getReg rt) s

/-- ANDIX (R121, 90_conflicts.md C2, C4). -/
def execAndix (rd rs : Reg) (imm : Word) (s : State) : Result :=
  accumulate (.andix rd rs imm) rd (s.getReg rs &&& imm) s

/-- ORX (R122). -/
def execOrx (rd rs rt : Reg) (s : State) : Result :=
  accumulate (.orx rd rs rt) rd (s.getReg rs ||| s.getReg rt) s

/-- ORIX (R123). -/
def execOrix (rd rs : Reg) (imm : Word) (s : State) : Result :=
  accumulate (.orix rd rs imm) rd (s.getReg rs ||| imm) s

end Sys2Proof.Machine
end

