-- ==== Sys2Proof/Machine/ShiftRotate.lean ====
section
/-! DEFINITION. RL, RR, SLLX, SRAX (43_shift_rotate.md): each moves by exactly one bit position. -/

namespace Sys2Proof.Machine

/-- RL (R130). -/
def execRl (rsd : Reg) (s : State) : Result :=
  writeResult (.rl rsd) rsd (stepRotateLeft s.dir (s.getReg rsd)) s

/-- RR (R131). -/
def execRr (rsd : Reg) (s : State) : Result :=
  writeResult (.rr rsd) rsd (stepRotateRight s.dir (s.getReg rsd)) s

/-- SLLX (R132). -/
def execSllx (rd rs : Reg) (s : State) : Result :=
  accumulate (.sllx rd rs) rd (shiftLeftOne (s.getReg rs)) s

/-- SRAX (R133). -/
def execSrax (rd rs : Reg) (s : State) : Result :=
  accumulate (.srax rd rs) rd (shiftRightArithOne (s.getReg rs)) s

end Sys2Proof.Machine
end

