-- ==== Sys2Proof/Machine/Dispatch.lean ====
section
/-! DEFINITION. The one match from an instruction to its meaning: a whole instruction, its check for an irreversible form and
the advance of the pc included (40_execution.md R91). -/

namespace Sys2Proof.Machine

def exec (i : Instr) (s : State) : Host.Outcome State Fault Refusal :=
  match i with
  | .add rsd rt => Sys2Proof.Machine.execAdd rsd rt s
  | .addi rsd imm => Sys2Proof.Machine.execAddi rsd imm s
  | .andix rd rs imm => Sys2Proof.Machine.execAndix rd rs imm s
  | .andx rd rs rt => Sys2Proof.Machine.execAndx rd rs rt s
  | .bez ra rb => Sys2Proof.Machine.execBez ra rb s
  | .bltz ra rb => Sys2Proof.Machine.execBltz ra rb s
  | .exch exch addr => Sys2Proof.Machine.execExch exch addr s
  | .orix rd rs imm => Sys2Proof.Machine.execOrix rd rs imm s
  | .orx rd rs rt => Sys2Proof.Machine.execOrx rd rs rt s
  | .rbez ra rb => Sys2Proof.Machine.execRbez ra rb s
  | .rbltz ra rb => Sys2Proof.Machine.execRbltz ra rb s
  | .rl rsd => Sys2Proof.Machine.execRl rsd s
  | .rr rsd => Sys2Proof.Machine.execRr rsd s
  | .sllx rd rs => Sys2Proof.Machine.execSllx rd rs s
  | .srax rd rs => Sys2Proof.Machine.execSrax rd rs s
  | .xor rsd rs => Sys2Proof.Machine.execXor rsd rs s
  | .xori rsd imm => Sys2Proof.Machine.execXori rsd imm s

end Sys2Proof.Machine
end

