-- ==== Sys2Proof/Machine/Cycle.lean ====
section
/-! DEFINITION. The instruction cycle of 40_execution.md R91, in the order of detection of 60_exceptions.md R177, and the
loading of one word where the next step fetches. -/

namespace Sys2Proof.Machine

/-- The part of `Step` below the end-of-run test (R91): fetch, decode, execute. -/
def cycle (s : State) : Result :=
  match s.fetch s.pc with
  | none => raise (.noInstruction s.pc)
  | some ir =>
    match decode ir with
    | .error _ => raise (.illegalInstruction s.pc ir)
    | .ok i => exec i s

/-- `Step` (R91): only a `Running` machine takes one (R30); the end-of-run test comes first (R97, R177). -/
def runStep (s : State) : Result :=
  match s.status with
  | .running => if s.endOfRun then .next s.finish else cycle s
  | .finished => .refused .notRunning
  | .faulted _ => .refused .notRunning

/-- `Step` as the spec's total change of state, the status included (R30, R91, R171). -/
def statusStep (s : State) : State := s.settle (runStep s)

/-- The state in which the next step fetches at `pc` the word `ir`, which the host has loaded there (R101): the machine is
running, and a run boundary that stood exactly at `pc` is moved one address on in the direction of execution (log 6). -/
def State.placeWord (s : State) (ir : IWord) : State :=
  let t := { s with program := s.program.load s.pc ir, status := .running }
  if t.endOfRun then
    match t.dir with
    | .forward => { t with finishPc := t.pc + 1 }
    | .reverse => { t with entryPc := t.pc }
  else t

end Sys2Proof.Machine
end

