-- ==== Sys2Proof/Machine/Step.lean ====
section
/-! DEFINITION. The step of the machine under the name the host fixes, and the placing of one instruction word where it
fetches. Both are defined in Cycle.lean. -/

namespace Sys2Proof.Machine

/-- One step (40_execution.md R91). -/
def step (s : State) : Host.Outcome State Fault Refusal := runStep s

/-- `s` with the word of an opcode-table row stored where `step` fetches next. -/
def State.withFetchWord (s : State) (nbits w : Nat) : State := s.placeWord (BitVec.ofNat 20 (w % 2 ^ nbits))

end Sys2Proof.Machine
end

