-- ==== Sys2Proof/Machine/Assembler.lean ====
section
/-! DEFINITION. The assembler notation of 30_encoding.md R76 to R83, from text to the parameters of a run. It is no part of
the hardware: it says which words a program written in the spec's notation places in instruction memory. What the rules
leave open about the text itself is fixed as log 22 says. Text is a list of characters. -/

namespace Sys2Proof.Machine

/-- A label's name, or any other piece of a statement, as its characters. R77 says only "a name"; which characters a name
may hold, and that the case of its letters counts, is the model's choice (log 22). -/
abbrev Token := List Char

/-- An operand as written (R76, R78). -/
inductive AsmOperand where
  | reg (r : Reg)
  | number (v : Int)
  | label (name : Token)
  deriving DecidableEq, Repr

/-- A statement (R76): one of the 17 instructions with its operands, the pseudo-instruction `neg` (R81), or a marker (R82). -/
inductive AsmStatement where
  | instr (o : Opcode) (args : List AsmOperand)
  | neg (r : Reg)
  | start
  | finish
  deriving DecidableEq, Repr

/-- A line (R77): the labels that stand before its statement, and the statement if it has one. -/
structure AsmLine where
  labels : List Token
  stmt : Option AsmStatement
  deriving DecidableEq, Repr

/-! ## Reading text -/

/-- The pieces of a text between separators, empty ones included. -/
def splitText (sep : Char → Bool) : List Char → List Token
  | [] => [[]]
  | c :: cs =>
    match splitText sep cs with
    | [] => [[c]]
    | w :: ws => if sep c then [] :: w :: ws else (c :: w) :: ws

/-- The tokens of a line: the comment cut off (R77), split at blanks and commas (R76), a colon ending its token. -/
def lineTokens (line : List Char) : List Token :=
  let code := (line.takeWhile (· != ';')).flatMap fun c => if c == ':' then [':', ' '] else [c]
  (splitText (fun c => c == ' ' || c == ',' || c == '\t' || c == '\r') code).filter (· != [])

/-- A digit's value in the given base (10 or 16). -/
def digitValue (base : Nat) (c : Char) : Option Nat :=
  let n := c.toNat
  let v := if 48 ≤ n ∧ n ≤ 57 then n - 48 else if 97 ≤ n ∧ n ≤ 102 then n - 87 else if 65 ≤ n ∧ n ≤ 70 then n - 55 else base
  if v < base then some v else none

/-- A nonempty digit string as a number, `acc` the value of the digits before it. -/
def digitsValue (base : Nat) : Nat → List Char → Option Nat
  | _, [] => none
  | acc, [c] => (digitValue base c).map (acc * base + ·)
  | acc, c :: cs => (digitValue base c).bind fun d => digitsValue base (acc * base + d) cs

/-- A register `$n`, `n` from 0 to 7 (R76). -/
def parseReg : Token → Option Reg
  | ['$', c] => (digitValue 8 c).bind fun d => if h : d < 8 then some ⟨d, h⟩ else none
  | _ => none

/-- An operand (R76, R78): `$n`, `0x` and hexadecimal digits, decimal digits with an optional minus sign, or a label. An
operand that begins with `$`, a minus sign or a digit is never read as a label (DESIGN CHOICE, log 22, safe). -/
def parseOperand (t : Token) : Option AsmOperand :=
  match t with
  | [] => none
  | '$' :: _ => (parseReg t).map .reg
  | '0' :: 'x' :: ds => (digitsValue 16 0 ds).map fun n => .number n
  | '-' :: ds => (digitsValue 10 0 ds).map fun n => .number (-n)
  | c :: _ => if (digitValue 10 c).isSome then (digitsValue 10 0 t).map fun n => .number n else some (.label t)

/-- The mnemonics, in lower case (R76: the case of a mnemonic does not matter). -/
def mnemonicTable : List (Token × Opcode) :=
  [(['a', 'd', 'd'], .add), (['a', 'd', 'd', 'i'], .addi), (['x', 'o', 'r'], .xor), (['x', 'o', 'r', 'i'], .xori),
   (['a', 'n', 'd', 'x'], .andx), (['o', 'r', 'x'], .orx), (['a', 'n', 'd', 'i', 'x'], .andix)] ++
  [(['o', 'r', 'i', 'x'], .orix), (['r', 'l'], .rl), (['r', 'r'], .rr), (['s', 'l', 'l', 'x'], .sllx),
   (['s', 'r', 'a', 'x'], .srax), (['e', 'x', 'c', 'h'], .exch)] ++
  [(['b', 'e', 'z'], .bez), (['b', 'l', 't', 'z'], .bltz), (['r', 'b', 'e', 'z'], .rbez), (['r', 'b', 'l', 't', 'z'], .rbltz)]

/-- A statement from its mnemonic and the tokens after it. -/
def parseStatement (mnemonic : Token) (args : List Token) : Option AsmStatement :=
  let m := mnemonic.map Char.toLower
  match mnemonicTable.lookup m with
  | some o => (args.mapM parseOperand).map (.instr o)
  | none =>
    if m == ['n', 'e', 'g'] then
      match args with
      | [r] => (parseReg r).map .neg
      | _ => none
    else if m == ['s', 't', 'a', 'r', 't'] && args.isEmpty then some .start
    else if m == ['f', 'i', 'n', 'i', 's', 'h'] && args.isEmpty then some .finish
    else none

/-- A line from its tokens: labels first, each ended by a colon (R77), then at most one statement. Any token before a colon
is taken as a name, the empty one too (DESIGN CHOICE, log 22, safe: R77 says only "a name"). -/
def parseTokens : List Token → Option AsmLine
  | [] => some { labels := [], stmt := none }
  | t :: ts =>
    if t.getLast? == some ':' then
      (parseTokens ts).map fun l => { l with labels := t.dropLast :: l.labels }
    else (parseStatement t ts).map fun st => { labels := [], stmt := some st }

/-- The lines of a program's text, one statement a line (R77). -/
def parseProgram (text : List Char) : Option (List AsmLine) :=
  (splitText (· == '\n') text).mapM fun line => parseTokens (lineTokens line)

/-! ## From statements to words -/

/-- How many instruction words a statement occupies (R81, R82). -/
def AsmStatement.size : AsmStatement → Nat
  | .instr _ _ => 1
  | .neg _ => 2
  | .start => 0
  | .finish => 0

/-- How many instruction words a line occupies. -/
def AsmLine.size (l : AsmLine) : Nat :=
  match l.stmt with
  | none => 0
  | some st => st.size

/-- Every line with the address it stands at, the first at `origin`. -/
def layOut (origin : Nat) : List AsmLine → List (Nat × AsmLine)
  | [] => []
  | l :: ls => (origin, l) :: layOut (origin + l.size) ls

/-- The labels with the addresses they stand for (R77). -/
def labelTable (ls : List (Nat × AsmLine)) : List (Token × Nat) :=
  ls.flatMap fun c => c.2.labels.map fun n => (n, c.1)

/-- An immediate from its value (R78): -256..511 is encodable, its low 9 bits are placed in `imm9`, which the instruction
sign-extends (R67); any other value is rejected. -/
def asmImm (v : Int) : Option Word :=
  if -256 ≤ v ∧ v ≤ 511 then some (sext12 (BitVec.ofInt 9 v)) else none

/-- An immediate operand: a number, or a label's address (R78). Names are compared letter for letter, the case included
(DESIGN CHOICE, log 22, safe: R76 lets the case vary for mnemonics and is silent on labels). -/
def AsmOperand.imm (syms : List (Token × Nat)) : AsmOperand → Option Word
  | .reg _ => none
  | .number v => asmImm v
  | .label n => (syms.lookup n).bind fun a => asmImm a

/-- An instruction from its mnemonic and operands, in the order of R76. -/
def asmInstr (syms : List (Token × Nat)) : Opcode → List AsmOperand → Option Instr
  | .add, [.reg d, .reg t] => some (.add d t)
  | .xor, [.reg d, .reg t] => some (.xor d t)
  | .addi, [.reg d, m] => (m.imm syms).map (.addi d)
  | .xori, [.reg d, m] => (m.imm syms).map (.xori d)
  | .andx, [.reg d, .reg t, .reg u] => some (.andx d t u)
  | .orx, [.reg d, .reg t, .reg u] => some (.orx d t u)
  | .andix, [.reg d, .reg t, m] => (m.imm syms).map (.andix d t)
  | .orix, [.reg d, .reg t, m] => (m.imm syms).map (.orix d t)
  | .rl, [.reg d] => some (.rl d)
  | .rr, [.reg d] => some (.rr d)
  | .sllx, [.reg d, .reg t] => some (.sllx d t)
  | .srax, [.reg d, .reg t] => some (.srax d t)
  | .exch, [.reg d, .reg t] => some (.exch d t)
  | .bez, [.reg d, .reg t] => some (.bez d t)
  | .bltz, [.reg d, .reg t] => some (.bltz d t)
  | .rbez, [.reg d, .reg t] => some (.rbez d t)
  | .rbltz, [.reg d, .reg t] => some (.rbltz d t)
  | _, _ => none

/-- `neg r` as the two instructions it stands for (R81). -/
def negInstrs (r : Reg) : List Instr := [.xori r 0xFFF, .addi r 1]

/-- The instructions of a statement (R79, R81, R82). -/
def AsmStatement.instrs (syms : List (Token × Nat)) : AsmStatement → Option (List Instr)
  | .instr o args => (asmInstr syms o args).map fun i => [i]
  | .neg r => some (negInstrs r)
  | .start => some []
  | .finish => some []

/-- The instructions of a line. -/
def AsmLine.instrs (syms : List (Token × Nat)) (l : AsmLine) : Option (List Instr) :=
  match l.stmt with
  | none => some []
  | some st => st.instrs syms

/-- Instructions as words at consecutive addresses from `a` on (R79). -/
def placeInstrs : Nat → List Instr → Program
  | _, [] => []
  | a, i :: is => (a, encode i) :: placeInstrs (a + 1) is

/-- The address at which a marker stands (R82). -/
def markerAddr (m : AsmStatement) (ls : List (Nat × AsmLine)) : Option Nat :=
  (ls.find? fun c => c.2.stmt == some m).map (·.1)

/-- A program's lines placed from `origin` on, as the parameters of a run (R35, R82): `start` marks `ENTRY_PC` and `finish`
marks `FINISH_PC`; where a marker is absent, the first address and the address after the last word take its place. -/
def assembleLines (origin : Nat) (lines : List AsmLine) : Option RunParams :=
  let placed := layOut origin lines
  let syms := labelTable placed
  let bound := origin + (lines.map AsmLine.size).sum
  if Config.instrWords ≤ bound ∨ ¬ (syms.map (·.1)).Nodup then none
  else (lines.mapM (AsmLine.instrs syms)).map fun iss =>
    { program := placeInstrs origin iss.flatten
      entryPc := BitVec.ofNat 12 ((markerAddr .start placed).getD origin)
      finishPc := BitVec.ofNat 12 ((markerAddr .finish placed).getD bound) }

/-- A program's text as the parameters of a run. -/
def assemble (origin : Nat) (text : List Char) : Option RunParams :=
  (parseProgram text).bind (assembleLines origin)

end Sys2Proof.Machine
end

