-- ==== Sys2Proof/Safety.lean ====
section
/-! DEFINITION. What counts as a good state, a good run and a well-behaved program, in the terms the claims use: the
canonical form of a state, runs and their endings (60_exceptions.md R171), when a step can be undone (40_execution.md R100), and the
programming rules of 70_reset_and_hazards.md that are predicates on a program or a state. -/

namespace Sys2Proof

open Sys2Proof.Machine

/-- The invariant of the model: both memories are in canonical form. -/
structure Canonical (s : State) : Prop where
  data : s.dmem.wf
  program : s.program.wf

/-! ## Runs -/

/-- `n` steps, each the spec's change of state with the status (R91). -/
def stepsOf : Nat → State → State
  | 0, s => s
  | n + 1, s => stepsOf n (statusStep s)

/-- The run from `s` is `Finished` after `n` steps, in the state `t` (R97). -/
def FinishesIn (n : Nat) (s t : State) : Prop := stepsOf n s = t ∧ t.status = .finished

/-- A safe run: it never faults (R171: "treat a reachable fault as the failure of the claim"). -/
def FaultFree (s : State) : Prop := ∀ n f, (stepsOf n s).status ≠ .faulted f

/-! ## Branches -/

/-- The address register of a branch (R66). -/
def branchReg : Instr → Option Reg
  | .bez ra _ => some ra
  | .bltz ra _ => some ra
  | .rbez ra _ => some ra
  | .rbltz ra _ => some ra
  | .add _ _ => none
  | .addi _ _ => none
  | .andix _ _ _ => none
  | .andx _ _ _ => none
  | .exch _ _ => none
  | .orix _ _ _ => none
  | .orx _ _ _ => none
  | .rl _ => none
  | .rr _ => none
  | .sllx _ _ => none
  | .srax _ _ => none
  | .xor _ _ => none
  | .xori _ _ => none

/-- The instruction is a branch whose condition holds: "taken" (R11, R142 to R145). BLTZ and RBLTZ read the register as a
signed number: "signed(x[rb]) < 0" (R143). -/
def taken (i : Instr) (s : State) : Bool :=
  match i with
  | .bez _ rb => decide (s.getReg rb = 0)
  | .rbez _ rb => decide (s.getReg rb = 0)
  | .bltz _ rb => decide ((s.getReg rb).toInt < 0)
  | .rbltz _ rb => decide ((s.getReg rb).toInt < 0)
  | .add _ _ => false
  | .addi _ _ => false
  | .andix _ _ _ => false
  | .andx _ _ _ => false
  | .exch _ _ => false
  | .orix _ _ _ => false
  | .orx _ _ _ => false
  | .rl _ => false
  | .rr _ => false
  | .sllx _ _ => false
  | .srax _ _ => false
  | .xor _ _ => false
  | .xori _ _ => false

/-! ## When a step can be undone (R100) -/

/-- The conditions of R100 on one step: the instruction at the `pc` is legal and no irreversible form, and if it is a branch
whose condition holds, the word at its target is the branch's own word. -/
def Undoable (s : State) : Prop :=
  ∃ ir i, s.fetch s.pc = some ir ∧ decode ir = .ok i ∧ i.irreversibleForm = false ∧
    ∀ ra, branchReg i = some ra → taken i s = true → s.fetch (s.getReg ra) = some ir

/-- `n` times the cycle below the end-of-run test ("ignore the end-of-run test", R100). -/
def cycles : Nat → State → Result
  | 0, s => .next s
  | n + 1, s =>
    match cycle s with
    | .next t => cycles n t
    | .fault f => .fault f
    | .refused r => .refused r

/-- Each of the next `n` steps meets the conditions of R100. -/
def UndoableFor : Nat → State → Prop
  | 0, _ => True
  | n + 1, s => Undoable s ∧ ∀ t, cycle s = .next t → UndoableFor n t

/-! ## Rules for programs -/

/-- R195: every word of the program is legal and no irreversible form. -/
def programUndoable (p : Program) : Bool :=
  p.all fun c =>
    match decode c.2 with
    | .ok i => !i.irreversibleForm
    | .error _ => false

/-- R198: the program occupies every address of `ENTRY_PC .. FINISH_PC - 1`. The range is read as numbers, without a wrap: it is
empty where `FINISH_PC` is not above `ENTRY_PC` (DESIGN CHOICE, log 26, safe: R198 does not say). -/
def programContiguous (p : Program) (entryPc finishPc : Addr) : Prop :=
  ∀ a : Addr, entryPc.toNat ≤ a.toNat → a.toNat < finishPc.toNat → (p.fetch a).isSome = true

/-- R197: every register but the results holds 0. -/
def tidy (results : List Reg) (s : State) : Prop := ∀ r : Reg, r ∉ results → s.getReg r = 0

end Sys2Proof
end

