-- ==== Sys2Proof/Certificates/Slice0/Obligations.lean ====
section
/-! DEFINITION. The statements for the provers. Each is a definition `Obligations.<Name> : Prop`; its docstring names the
rules of spec/ it formalises, and the decision rows of 92_eei_decisions.md (the spec's own choices) it rests on. The first
part holds the vocabulary of the statements, written from the spec and not from the meanings. -/

namespace Sys2Proof.Claims

open Sys2Proof.Machine

/-! ## What an instruction may leave as it was -/

/-- `b` is the instruction address beside `a` in the direction `d` (R25, R96). -/
def Beside (d : Direction) (a b : Addr) : Prop :=
  (d = .forward → b = a + 1) ∧ (d = .reverse → b = a - 1)

/-- The run parameters and the run status are the same. -/
structure SameRun (s t : State) : Prop where
  program : t.program = s.program
  entryPc : t.entryPc = s.entryPc
  finishPc : t.finishPc = s.finishPc
  status : t.status = s.status

/-- Every word of data memory reads the same. -/
def SameData (s t : State) : Prop := ∀ a, t.readMem a = s.readMem a

/-- Every register but `rd` holds the same. -/
def OtherRegs (rd : Reg) (s t : State) : Prop := ∀ r, r ≠ rd → t.getReg r = s.getReg r

/-- The frame of an instruction that writes one register: `rd` holds `v`, the `pc` stands beside where it stood, and all
else is as it was. -/
structure WritesOnly (rd : Reg) (v : Word) (s t : State) : Prop where
  value : t.getReg rd = v
  others : OtherRegs rd s t
  data : SameData s t
  dir : t.dir = s.dir
  pc : Beside s.dir s.pc t.pc
  run : SameRun s t

/-- The effect of an instruction that writes the one register `rd`: forward for every operand; in reverse unless its
registers clash; and the fault IrreversibleForm in reverse when they do. -/
def RegisterEffect (i : Instr) (rd : Reg) (forward reverse : State → Word) (clash : Prop) : Prop :=
  ∀ s : State,
    (s.dir = .forward → ∃ t, exec i s = .next t ∧ WritesOnly rd (forward s) s t) ∧
    (s.dir = .reverse → ¬ clash → ∃ t, exec i s = .next t ∧ WritesOnly rd (reverse s) s t) ∧
    (s.dir = .reverse → clash → exec i s = .fault (.irreversibleForm s.pc (encode i)))

/-- The effect of an instruction that writes the one register `rd` and has an inverse for every operand. -/
def InvertibleEffect (i : Instr) (rd : Reg) (forward reverse : State → Word) : Prop :=
  ∀ s : State,
    (s.dir = .forward → ∃ t, exec i s = .next t ∧ WritesOnly rd (forward s) s t) ∧
    (s.dir = .reverse → ∃ t, exec i s = .next t ∧ WritesOnly rd (reverse s) s t)

/-- The effect of an instruction that writes `v` to `rd` in both directions unless its registers clash. -/
def SelfInverseEffect (i : Instr) (rd : Reg) (v : State → Word) (clash : Prop) : Prop :=
  RegisterEffect i rd v v clash

/-! ## EXCH -/

/-- `x[exch]` and the word at `x[addr]` have changed places, the `pc` stands beside where it stood, and all else is as it
was. -/
structure Exchanged (exch addr : Reg) (s t : State) : Prop where
  register : t.getReg exch = s.readMem (s.getReg addr)
  word : t.readMem (s.getReg addr) = s.getReg exch
  otherRegs : OtherRegs exch s t
  otherWords : ∀ a, a ≠ s.getReg addr → t.readMem a = s.readMem a
  dir : t.dir = s.dir
  pc : Beside s.dir s.pc t.pc
  run : SameRun s t

/-! ## Branches -/

/-- The word at `T` encodes one of the instructions `twins`. -/
def HoldsOneOf (twins : List Instr) (s : State) (T : Addr) : Prop :=
  ∃ ir, s.fetch T = some ir ∧ ∃ j ∈ twins, decode ir = .ok j

/-- A branch not taken: nothing but the `pc` moves. -/
structure NotTaken (s t : State) : Prop where
  regs : ∀ r, t.getReg r = s.getReg r
  data : SameData s t
  dir : t.dir = s.dir
  pc : Beside s.dir s.pc t.pc
  run : SameRun s t

/-- A branch taken through `ra`: `ra` holds the branch's own address, the direction is toggled if the branch reverses, and
the `pc` stands beside the target in the direction there is now. -/
structure Taken (ra : Reg) (reverses : Bool) (s t : State) : Prop where
  register : t.getReg ra = s.pc
  otherRegs : OtherRegs ra s t
  data : SameData s t
  keeps : reverses = false → t.dir = s.dir
  toggles : reverses = true → t.dir ≠ s.dir
  pc : Beside t.dir (s.getReg ra) t.pc
  run : SameRun s t

/-- The effect of a branch: the fault IrreversibleForm in reverse when its registers are the same; otherwise not taken,
taken to a twin, or the fault UnpairedBranchTarget. -/
def BranchEffect (i : Instr) (ra rb : Reg) (holds : Word → Prop) (twins : List Instr) (reverses : Bool) : Prop :=
  ∀ s : State,
    (s.dir = .reverse → ra = rb → exec i s = .fault (.irreversibleForm s.pc (encode i))) ∧
    ((s.dir = .reverse → ra ≠ rb) → ¬ holds (s.getReg rb) → ∃ t, exec i s = .next t ∧ NotTaken s t) ∧
    ((s.dir = .reverse → ra ≠ rb) → holds (s.getReg rb) → HoldsOneOf twins s (s.getReg ra) →
      ∃ t, exec i s = .next t ∧ Taken ra reverses s t) ∧
    ((s.dir = .reverse → ra ≠ rb) → holds (s.getReg rb) → ¬ HoldsOneOf twins s (s.getReg ra) →
      exec i s = .fault (.unpairedBranchTarget s.pc (s.getReg ra)))

/-- The branch toggles `dir` when taken (R144, R145). -/
def reversing : Instr → Bool
  | .rbez _ _ => true
  | .rbltz _ _ => true
  | .add _ _ => false
  | .addi _ _ => false
  | .andix _ _ _ => false
  | .andx _ _ _ => false
  | .bez _ _ => false
  | .bltz _ _ => false
  | .exch _ _ => false
  | .orix _ _ _ => false
  | .orx _ _ _ => false
  | .rl _ => false
  | .rr _ => false
  | .sllx _ _ => false
  | .srax _ _ => false
  | .xor _ _ => false
  | .xori _ _ => false

/-- The twins of a branch (R141): the same condition and the same two registers, reversing or not. -/
def twinsOf : Instr → List Instr
  | .bez ra rb => [.bez ra rb, .rbez ra rb]
  | .rbez ra rb => [.bez ra rb, .rbez ra rb]
  | .bltz ra rb => [.bltz ra rb, .rbltz ra rb]
  | .rbltz ra rb => [.bltz ra rb, .rbltz ra rb]
  | .add _ _ => []
  | .addi _ _ => []
  | .andix _ _ _ => []
  | .andx _ _ _ => []
  | .exch _ _ => []
  | .orix _ _ _ => []
  | .orx _ _ _ => []
  | .rl _ => []
  | .rr _ => []
  | .sllx _ _ => []
  | .srax _ _ => []
  | .xor _ _ => []
  | .xori _ _ => []

/-- The irreversible forms as R95 lists them. -/
def IrreversibleForm : Instr → Prop
  | .add rsd rt => rsd = rt
  | .xor rsd rs => rsd = rs
  | .andx rd rs rt => rd = rs ∨ rd = rt
  | .orx rd rs rt => rd = rs ∨ rd = rt
  | .andix rd rs _ => rd = rs
  | .orix rd rs _ => rd = rs
  | .sllx rd rs => rd = rs
  | .srax rd rs => rd = rs
  | .exch e a => e = a
  | .bez ra rb => ra = rb
  | .bltz ra rb => ra = rb
  | .rbez ra rb => ra = rb
  | .rbltz ra rb => ra = rb
  | .addi _ _ => False
  | .xori _ _ => False
  | .rl _ => False
  | .rr _ => False

/-! ## The table of R23 -/

/-- The registers an instruction reads (R23). -/
def readsOf (i : Instr) (s : State) : List Reg :=
  match i with
  | .add rsd rt => [rsd, rt]
  | .addi rsd _ => [rsd]
  | .xor rsd rs => [rsd, rs]
  | .xori rsd _ => [rsd]
  | .andx rd rs rt => [rd, rs, rt]
  | .andix rd rs _ => [rd, rs]
  | .orx rd rs rt => [rd, rs, rt]
  | .orix rd rs _ => [rd, rs]
  | .rl rsd => [rsd]
  | .rr rsd => [rsd]
  | .sllx rd rs => [rd, rs]
  | .srax rd rs => [rd, rs]
  | .exch e a => [e, a]
  | .bez ra rb => if taken i s then [rb, ra] else [rb]
  | .bltz ra rb => if taken i s then [rb, ra] else [rb]
  | .rbez ra rb => if taken i s then [rb, ra] else [rb]
  | .rbltz ra rb => if taken i s then [rb, ra] else [rb]

/-- The registers an instruction writes (R23). -/
def writesOf (i : Instr) (s : State) : List Reg :=
  match i with
  | .add rsd _ => [rsd]
  | .addi rsd _ => [rsd]
  | .xor rsd _ => [rsd]
  | .xori rsd _ => [rsd]
  | .andx rd _ _ => [rd]
  | .andix rd _ _ => [rd]
  | .orx rd _ _ => [rd]
  | .orix rd _ _ => [rd]
  | .rl rsd => [rsd]
  | .rr rsd => [rsd]
  | .sllx rd _ => [rd]
  | .srax rd _ => [rd]
  | .exch e _ => [e]
  | .bez ra _ => if taken i s then [ra] else []
  | .bltz ra _ => if taken i s then [ra] else []
  | .rbez ra _ => if taken i s then [ra] else []
  | .rbltz ra _ => if taken i s then [ra] else []

/-- Two states that may differ in the general registers only. -/
structure SameButRegisters (s t : State) : Prop where
  pc : t.pc = s.pc
  dir : t.dir = s.dir
  dmem : t.dmem = s.dmem
  run : SameRun s t

/-! ## Encodings as numbers -/

/-- Format REG of R63 with its zero field zero: the value of the word whose fields are the arguments. -/
def regWord (op fa fb fc : Nat) : Nat := op * 2 ^ 15 + fa * 2 ^ 12 + fb * 2 ^ 9 + fc * 2 ^ 6

/-- Formats I9 and Z9 of R64 and R65: the value of the word whose fields are the arguments. -/
def immWord (op fa fb imm9 : Nat) : Nat := op * 2 ^ 15 + fa * 2 ^ 12 + fb * 2 ^ 9 + imm9

/-- `{v[8], v[8], v[8], v[8:0]}` (R67) as a number. -/
def sextValue (v : BitVec 9) : Word := BitVec.ofNat 12 (if 256 ≤ v.toNat then v.toNat + 3584 else v.toNat)

/-- The opcode of each instruction as R68's map gives it. -/
def opcodeOf : Instr → Nat
  | .addi _ _ => 0b00001
  | .xori _ _ => 0b00010
  | .rl _ => 0b00100
  | .rr _ => 0b00101
  | .add _ _ => 0b01001
  | .xor _ _ => 0b01010
  | .andix _ _ _ => 0b10000
  | .orix _ _ _ => 0b10001
  | .exch _ _ => 0b10011
  | .bez _ _ => 0b10100
  | .bltz _ _ => 0b10101
  | .rbez _ _ => 0b10110
  | .rbltz _ _ => 0b10111
  | .andx _ _ _ => 0b11000
  | .orx _ _ _ => 0b11001
  | .sllx _ _ => 0b11100
  | .srax _ _ => 0b11110

/-- The fifteen unassigned opcodes of R68. -/
def unassigned : List Nat :=
  [0b00000, 0b00011, 0b00110, 0b00111, 0b01000, 0b01011, 0b01100, 0b01101, 0b01110, 0b01111] ++
  [0b10010, 0b11010, 0b11011, 0b11101, 0b11111]

/-- The immediate an instruction holds, if it has one (R67). -/
def immediateOf : Instr → Option Word
  | .addi _ imm => some imm
  | .xori _ imm => some imm
  | .andix _ _ imm => some imm
  | .orix _ _ imm => some imm
  | .add _ _ => none
  | .andx _ _ _ => none
  | .bez _ _ => none
  | .bltz _ _ => none
  | .exch _ _ => none
  | .orx _ _ _ => none
  | .rbez _ _ => none
  | .rbltz _ _ => none
  | .rl _ => none
  | .rr _ => none
  | .sllx _ _ => none
  | .srax _ _ => none
  | .xor _ _ => none

/-! ## Steps and runs -/

/-- The two conditions under which a run is over when a step is about to begin (R97). -/
def AtEnd (s : State) : Prop :=
  (s.dir = .forward ∧ s.pc = s.finishPc) ∨ (s.dir = .reverse ∧ s.pc = s.entryPc - 1)

/-- Instructions executed one after the other, whatever the `pc`. -/
def execAll : List Instr → State → Result
  | [], s => .next s
  | i :: is, s =>
    match exec i s with
    | .next t => execAll is t
    | .fault f => .fault f
    | .refused r => .refused r

/-- An outcome with the data memory of its next state replaced. -/
def withData (m : Memory) : Result → Result
  | .next t => .next { t with dmem := m }
  | .fault f => .fault f
  | .refused r => .refused r

end Sys2Proof.Claims

open Sys2Proof Sys2Proof.Machine Sys2Proof.Claims

/-! ## Encoding -/

/-- R63, R64, R65, R66: the word of every instruction, as a number, has its opcode, its operands and its zeros in the fields
the rules place them in, `rsd` in both `fa` and `fb`. -/
def Obligations.WordLayout : Prop :=
  (∀ d t : Reg, (encode (.add d t)).toNat = regWord 0b01001 d d t) ∧
  (∀ d t : Reg, (encode (.xor d t)).toNat = regWord 0b01010 d d t) ∧
  (∀ d s t : Reg, (encode (.andx d s t)).toNat = regWord 0b11000 d s t) ∧
  (∀ d s t : Reg, (encode (.orx d s t)).toNat = regWord 0b11001 d s t) ∧
  (∀ d : Reg, (encode (.rl d)).toNat = regWord 0b00100 d d 0) ∧
  (∀ d : Reg, (encode (.rr d)).toNat = regWord 0b00101 d d 0) ∧
  (∀ d s : Reg, (encode (.sllx d s)).toNat = regWord 0b11100 d s 0) ∧
  (∀ d s : Reg, (encode (.srax d s)).toNat = regWord 0b11110 d s 0) ∧
  (∀ (d : Reg) (m : BitVec 9), (encode (.addi d (sextValue m))).toNat = immWord 0b00001 d d m.toNat) ∧
  (∀ (d : Reg) (m : BitVec 9), (encode (.xori d (sextValue m))).toNat = immWord 0b00010 d d m.toNat) ∧
  (∀ (d s : Reg) (m : BitVec 9), (encode (.andix d s (sextValue m))).toNat = immWord 0b10000 d s m.toNat) ∧
  (∀ (d s : Reg) (m : BitVec 9), (encode (.orix d s (sextValue m))).toNat = immWord 0b10001 d s m.toNat) ∧
  (∀ e a : Reg, (encode (.exch e a)).toNat = immWord 0b10011 e a 0) ∧
  (∀ ra rb : Reg, (encode (.bez ra rb)).toNat = immWord 0b10100 ra rb 0) ∧
  (∀ ra rb : Reg, (encode (.bltz ra rb)).toNat = immWord 0b10101 ra rb 0) ∧
  (∀ ra rb : Reg, (encode (.rbez ra rb)).toNat = immWord 0b10110 ra rb 0) ∧
  (∀ ra rb : Reg, (encode (.rbltz ra rb)).toNat = immWord 0b10111 ra rb 0)

/-- R68: the opcode is `ir[19:15]`; a word that decodes carries its instruction's opcode of the map, an instruction's word
carries it, and a word with one of the fifteen unassigned opcodes decodes to nothing. -/
def Obligations.OpcodeMap : Prop :=
  (∀ ir i, decode ir = .ok i → ir.toNat / 2 ^ 15 = opcodeOf i) ∧
  (∀ i, (encode i).toNat / 2 ^ 15 = opcodeOf i) ∧
  (∀ ir : IWord, ir.toNat / 2 ^ 15 ∈ unassigned → ∀ i, decode ir ≠ .ok i)

/-- R67: the immediate of every decoded instruction that has one is `ir[8:0]` sign-extended (bits 8..0 are the field's, bits
11..9 repeat bit 8), so it is one of `0x000..0x0FF` and `0xF00..0xFFF`; and each of those is the immediate of some word. -/
def Obligations.ImmediateIsSignExtended : Prop :=
  (∀ ir i imm, decode ir = .ok i → immediateOf i = some imm →
    (∀ k, k < 9 → imm.getLsbD k = ir.getLsbD k) ∧ (∀ k, 9 ≤ k → k < 12 → imm.getLsbD k = ir.getLsbD 8) ∧
    (imm.toNat ≤ 0x0FF ∨ 0xF00 ≤ imm.toNat)) ∧
  (∀ imm : Word, (imm.toNat ≤ 0x0FF ∨ 0xF00 ≤ imm.toNat) →
    ∃ ir i, decode ir = .ok i ∧ immediateOf i = some imm)

/-- R75, R79 (the spec derives R75 from R62 to R72 and decision D11): every well-formed instruction is decoded from its own
word, with every operand. -/
def Obligations.DecodeOfEncode : Prop := ∀ i : Instr, i.wf = true → decode (encode i) = .ok i

/-- R75 ("`Decode` is injective on the words it accepts"; derived there, decision D11): a word that decodes is the one word of
a well-formed instruction. -/
def Obligations.EncodeOfDecode : Prop := ∀ ir i, decode ir = .ok i → i.wf = true ∧ encode i = ir

/-- R173, R70 to R72 (decision D11): a word is illegal exactly when its opcode is unassigned, or a zero field is not zero,
or the two copies of `rsd` differ; and a step that fetches an illegal word faults with the address and the word. -/
def Obligations.IllegalWordsExactly : Prop :=
  (∀ ir : IWord, (∃ e, decode ir = .error e) ↔
    (ir.toNat / 2 ^ 15 ∈ unassigned ∨
      (ir.toNat / 2 ^ 15 ∈ [0b01001, 0b01010, 0b11000, 0b11001] ∧ ir.toNat % 2 ^ 6 ≠ 0) ∨
      (ir.toNat / 2 ^ 15 ∈ [0b00100, 0b00101, 0b11100, 0b11110, 0b10011, 0b10100, 0b10101, 0b10110, 0b10111] ∧
        ir.toNat % 2 ^ 9 ≠ 0) ∨
      (ir.toNat / 2 ^ 15 ∈ [0b01001, 0b00001, 0b01010, 0b00010, 0b00100, 0b00101] ∧
        ir.toNat / 2 ^ 12 % 2 ^ 3 ≠ ir.toNat / 2 ^ 9 % 2 ^ 3))) ∧
  (∀ s ir e, s.status = .running → ¬ AtEnd s → s.fetch s.pc = some ir → decode ir = .error e →
    step s = .fault (.illegalInstruction s.pc ir))

/-- 95_test_vectors.md V1: the seventeen words the spec writes out bit by bit, one for each instruction, decode to the
instructions they stand for. -/
def Obligations.WrittenOutWordsDecode : Prop :=
  decode 0b01001011011101000000#20 = .ok (.add 3 5) ∧
  decode 0b00001010010111111101#20 = .ok (.addi 2 0xFFD#12) ∧
  decode 0b10000100001011110000#20 = .ok (.andix 4 1 0x0F0#12) ∧
  decode 0b11000100001011000000#20 = .ok (.andx 4 1 3) ∧
  decode 0b10100100111000000000#20 = .ok (.bez 4 7) ∧
  decode 0b10101011010000000000#20 = .ok (.bltz 3 2) ∧
  decode 0b10011001010000000000#20 = .ok (.exch 1 2) ∧
  decode 0b10001101001000000111#20 = .ok (.orix 5 1 0x007#12) ∧
  decode 0b11001110001010000000#20 = .ok (.orx 6 1 2) ∧
  decode 0b10110101010000000000#20 = .ok (.rbez 5 2) ∧
  decode 0b10111101010000000000#20 = .ok (.rbltz 5 2) ∧
  decode 0b00100001001000000000#20 = .ok (.rl 1) ∧
  decode 0b00101010010000000000#20 = .ok (.rr 2) ∧
  decode 0b11100110001000000000#20 = .ok (.sllx 6 1) ∧
  decode 0b11110111010000000000#20 = .ok (.srax 7 2) ∧
  decode 0b01010000000001000000#20 = .ok (.xor 0 1) ∧
  decode 0b00010010010111111111#20 = .ok (.xori 2 0xFFF#12)

/-! ## The effect and the frame of each instruction -/

/-- R110 ADD: `x[rsd] + x[rt]` forward, `x[rsd] - x[rt]` in reverse (decision D7), IrreversibleForm in reverse when rsd = rt
(decision D9), the `pc` advanced (decision D5), all else unchanged. -/
def Obligations.AddEffect : Prop :=
  ∀ rsd rt : Reg, RegisterEffect (.add rsd rt) rsd
    (fun s => s.getReg rsd + s.getReg rt) (fun s => s.getReg rsd - s.getReg rt) (rsd = rt)

/-- R111 ADDI: the immediate added forward, subtracted in reverse (decisions D5, D7), never an irreversible form. -/
def Obligations.AddiEffect : Prop :=
  ∀ (rsd : Reg) (imm : Word), InvertibleEffect (.addi rsd imm) rsd
    (fun s => s.getReg rsd + imm) (fun s => s.getReg rsd - imm)

/-- R112 XOR: `x[rsd] ^ x[rs]` in both directions (decisions D5, D7, D9). -/
def Obligations.XorEffect : Prop :=
  ∀ rsd rs : Reg, SelfInverseEffect (.xor rsd rs) rsd (fun s => s.getReg rsd ^^^ s.getReg rs) (rsd = rs)

/-- R113 XORI: `x[rsd] ^ imm` in both directions (decisions D5, D7), never an irreversible form. -/
def Obligations.XoriEffect : Prop :=
  ∀ (rsd : Reg) (imm : Word), InvertibleEffect (.xori rsd imm) rsd
    (fun s => s.getReg rsd ^^^ imm) (fun s => s.getReg rsd ^^^ imm)

/-- R120 ANDX: `(x[rs] & x[rt]) ^ x[rd]` in both directions (decisions D5, D7, D9). -/
def Obligations.AndxEffect : Prop :=
  ∀ rd rs rt : Reg, SelfInverseEffect (.andx rd rs rt) rd
    (fun s => (s.getReg rs &&& s.getReg rt) ^^^ s.getReg rd) (rd = rs ∨ rd = rt)

/-- R121 ANDIX: `(x[rs] & imm) ^ x[rd]` in both directions (decisions D5, D7, D9). -/
def Obligations.AndixEffect : Prop :=
  ∀ (rd rs : Reg) (imm : Word), SelfInverseEffect (.andix rd rs imm) rd
    (fun s => (s.getReg rs &&& imm) ^^^ s.getReg rd) (rd = rs)

/-- R122 ORX: `(x[rs] | x[rt]) ^ x[rd]` in both directions (decisions D5, D7, D9). -/
def Obligations.OrxEffect : Prop :=
  ∀ rd rs rt : Reg, SelfInverseEffect (.orx rd rs rt) rd
    (fun s => (s.getReg rs ||| s.getReg rt) ^^^ s.getReg rd) (rd = rs ∨ rd = rt)

/-- R123 ORIX: `(x[rs] | imm) ^ x[rd]` in both directions (decisions D5, D7, D9). -/
def Obligations.OrixEffect : Prop :=
  ∀ (rd rs : Reg) (imm : Word), SelfInverseEffect (.orix rd rs imm) rd
    (fun s => (s.getReg rs ||| imm) ^^^ s.getReg rd) (rd = rs)

/-- R130 RL: rotate left by one forward, right by one in reverse (decisions D5, D7), never an irreversible form. -/
def Obligations.RlEffect : Prop :=
  ∀ rsd : Reg, InvertibleEffect (.rl rsd) rsd
    (fun s => (s.getReg rsd).rotateLeft 1) (fun s => (s.getReg rsd).rotateRight 1)

/-- R131 RR: rotate right by one forward, left by one in reverse (decisions D5, D7), never an irreversible form. -/
def Obligations.RrEffect : Prop :=
  ∀ rsd : Reg, InvertibleEffect (.rr rsd) rsd
    (fun s => (s.getReg rsd).rotateRight 1) (fun s => (s.getReg rsd).rotateLeft 1)

/-- R132 SLLX: `x[rs]` shifted left by one, exclusive-ored into `x[rd]`, in both directions (decisions D5, D7, D9). -/
def Obligations.SllxEffect : Prop :=
  ∀ rd rs : Reg, SelfInverseEffect (.sllx rd rs) rd (fun s => (s.getReg rs <<< 1) ^^^ s.getReg rd) (rd = rs)

/-- R133 SRAX: `x[rs]` shifted right by one with its sign, exclusive-ored into `x[rd]`, in both directions (decisions D5,
D7, D9). -/
def Obligations.SraxEffect : Prop :=
  ∀ rd rs : Reg, SelfInverseEffect (.srax rd rs) rd (fun s => (s.getReg rs).sshiftRight 1 ^^^ s.getReg rd) (rd = rs)

/-- R160 EXCH: the register and the data word at the address held in `addr` change places, for every register pair forward
and every pair of different registers in reverse; IrreversibleForm in reverse when exch = addr (decisions D5, D7, D9,
D15). No word but the addressed one and no register but `exch` changes. -/
def Obligations.ExchEffect : Prop :=
  ∀ (e a : Reg) (s : State),
    ((s.dir = .reverse → e ≠ a) → ∃ t, exec (.exch e a) s = .next t ∧ Exchanged e a s t) ∧
    (s.dir = .reverse → e = a → exec (.exch e a) s = .fault (.irreversibleForm s.pc (encode (.exch e a))))

/-- R142 BEZ with R140, R141 (decisions D4, D5, D9, D10): taken when all bits of `x[rb]` are zero. -/
def Obligations.BezEffect : Prop :=
  ∀ ra rb : Reg, BranchEffect (.bez ra rb) ra rb (fun v => v = 0) [.bez ra rb, .rbez ra rb] false

/-- R143 BLTZ with R140, R141 (decisions D4, D5, D9, D10): taken when `x[rb]` read as signed is below zero. -/
def Obligations.BltzEffect : Prop :=
  ∀ ra rb : Reg, BranchEffect (.bltz ra rb) ra rb (fun v => v.toInt < 0) [.bltz ra rb, .rbltz ra rb] false

/-- R144 RBEZ with R140, R141 (decisions D4, D5, D8, D9, D10): as BEZ, and the direction toggles when it is taken. -/
def Obligations.RbezEffect : Prop :=
  ∀ ra rb : Reg, BranchEffect (.rbez ra rb) ra rb (fun v => v = 0) [.bez ra rb, .rbez ra rb] true

/-- R145 RBLTZ with R140, R141 (decisions D4, D5, D8, D9, D10): as BLTZ, and the direction toggles when it is taken. -/
def Obligations.RbltzEffect : Prop :=
  ∀ ra rb : Reg, BranchEffect (.rbltz ra rb) ra rb (fun v => v.toInt < 0) [.bltz ra rb, .rbltz ra rb] true

/-! ## Rules about all instructions -/

/-- R23: an instruction changes no register outside its "writes" column, and its outcome depends on no register outside its
"reads" column: two states that agree on those and on everything else end alike, with the same values written. -/
def Obligations.RegisterReadsAndWrites : Prop :=
  (∀ i s t, exec i s = .next t → ∀ r, r ∉ writesOf i s → t.getReg r = s.getReg r) ∧
  (∀ i s s', SameButRegisters s s' → (∀ r ∈ readsOf i s, s'.getReg r = s.getReg r) →
    (∀ t, exec i s = .next t → ∃ t', exec i s' = .next t' ∧ SameButRegisters t t' ∧
      ∀ r ∈ writesOf i s, t'.getReg r = t.getReg r) ∧
    (∀ f, exec i s = .fault f → exec i s' = .fault f))

/-- R42: no instruction but EXCH changes or depends on data memory; EXCH reads the addressed word into its register and
writes its register to the word; adding a register to a clear one copies it; and EXCH, ADD, EXCH into clear registers
copies a word that is still in memory afterwards. -/
def Obligations.OnlyExchTouchesDataMemory : Prop :=
  (∀ i s t, (∀ e a, i ≠ .exch e a) → exec i s = .next t → SameData s t) ∧
  (∀ i s m, (∀ e a, i ≠ .exch e a) → exec i { s with dmem := m } = withData m (exec i s)) ∧
  (∀ e a s t, exec (.exch e a) s = .next t →
    t.getReg e = s.readMem (s.getReg a) ∧ t.readMem (s.getReg a) = s.getReg e) ∧
  (∀ (copy original : Reg) s, s.dir = .forward → copy ≠ original → s.getReg copy = 0 →
    ∃ t, exec (.add copy original) s = .next t ∧
      t.getReg copy = s.getReg original ∧ t.getReg original = s.getReg original) ∧
  (∀ (copy e a : Reg) s, s.dir = .forward → copy ≠ e → copy ≠ a → e ≠ a → s.getReg copy = 0 → s.getReg e = 0 →
    ∃ t, execAll [.exch e a, .add copy e, .exch e a] s = .next t ∧
      t.getReg copy = s.readMem (s.getReg a) ∧ t.getReg e = 0 ∧ SameData s t)

/-- R114, R94, R95 (decisions D7 and D9 for what the reverse direction computes and where it completes): the sums of ADD
and ADDI, and the differences that undo them in reverse, are modulo 4096, whether the operands
are read as unsigned or as two's complement, and the instruction completes whatever they overflow; and the logical
instructions act on each of the 12 bit positions independently. -/
def Obligations.IntegerArithmeticLaws : Prop :=
  (∀ (d t : Reg) s, s.dir = .forward → ∃ u, exec (.add d t) s = .next u ∧
    (u.getReg d).toNat = ((s.getReg d).toNat + (s.getReg t).toNat) % 4096 ∧
    (u.getReg d).toInt = ((s.getReg d).toInt + (s.getReg t).toInt).bmod 4096) ∧
  (∀ (d : Reg) m s, s.dir = .forward → ∃ u, exec (.addi d m) s = .next u ∧
    (u.getReg d).toNat = ((s.getReg d).toNat + m.toNat) % 4096 ∧
    (u.getReg d).toInt = ((s.getReg d).toInt + m.toInt).bmod 4096) ∧
  (∀ (d t : Reg) s, s.dir = .reverse → d ≠ t → ∃ u, exec (.add d t) s = .next u ∧
    (u.getReg d).toNat = ((s.getReg d).toNat + (4096 - (s.getReg t).toNat)) % 4096 ∧
    (u.getReg d).toInt = ((s.getReg d).toInt - (s.getReg t).toInt).bmod 4096) ∧
  (∀ (d : Reg) m s, s.dir = .reverse → ∃ u, exec (.addi d m) s = .next u ∧
    (u.getReg d).toNat = ((s.getReg d).toNat + (4096 - m.toNat)) % 4096 ∧
    (u.getReg d).toInt = ((s.getReg d).toInt - m.toInt).bmod 4096) ∧
  (∀ (d t : Reg) s, (s.dir = .reverse → d ≠ t) → ∃ u, exec (.xor d t) s = .next u ∧
    ∀ k, (u.getReg d).getLsbD k = ((s.getReg d).getLsbD k ^^ (s.getReg t).getLsbD k)) ∧
  (∀ (d : Reg) m s, ∃ u, exec (.xori d m) s = .next u ∧
    ∀ k, (u.getReg d).getLsbD k = ((s.getReg d).getLsbD k ^^ m.getLsbD k)) ∧
  (∀ (d r t : Reg) s, (s.dir = .reverse → d ≠ r ∧ d ≠ t) → ∃ u, exec (.andx d r t) s = .next u ∧
    ∀ k, (u.getReg d).getLsbD k = (((s.getReg r).getLsbD k && (s.getReg t).getLsbD k) ^^ (s.getReg d).getLsbD k)) ∧
  (∀ (d r : Reg) m s, (s.dir = .reverse → d ≠ r) → ∃ u, exec (.andix d r m) s = .next u ∧
    ∀ k, (u.getReg d).getLsbD k = (((s.getReg r).getLsbD k && m.getLsbD k) ^^ (s.getReg d).getLsbD k)) ∧
  (∀ (d r t : Reg) s, (s.dir = .reverse → d ≠ r ∧ d ≠ t) → ∃ u, exec (.orx d r t) s = .next u ∧
    ∀ k, (u.getReg d).getLsbD k = (((s.getReg r).getLsbD k || (s.getReg t).getLsbD k) ^^ (s.getReg d).getLsbD k)) ∧
  (∀ (d r : Reg) m s, (s.dir = .reverse → d ≠ r) → ∃ u, exec (.orix d r m) s = .next u ∧
    ∀ k, (u.getReg d).getLsbD k = (((s.getReg r).getLsbD k || m.getLsbD k) ^^ (s.getReg d).getLsbD k))

/-- R170, R99 (decision D12): an instruction ends in a next state or a fault, never in a refusal, and its fault is
IrreversibleForm or UnpairedBranchTarget. -/
def Obligations.InstructionsNeverRefuse : Prop :=
  ∀ i s, (∃ t, exec i s = .next t) ∨ exec i s = .fault (.irreversibleForm s.pc (encode i)) ∨
    ∃ T, exec i s = .fault (.unpairedBranchTarget s.pc T)

/-- R95, R175 (decision D9): an instruction faults with IrreversibleForm exactly when it is one of the listed forms and the
step is a reverse one, whatever the registers hold; it records the address and the instruction's word. -/
def Obligations.IrreversibleFormExactly : Prop :=
  ∀ i s, ((∃ a ir, exec i s = .fault (.irreversibleForm a ir)) ↔ (s.dir = .reverse ∧ IrreversibleForm i)) ∧
    ∀ a ir, exec i s = .fault (.irreversibleForm a ir) → a = s.pc ∧ ir = encode i

/-- R176 (decision D10): an instruction faults with UnpairedBranchTarget exactly when it is a branch whose condition holds, no
irreversible form undone, and the word at its target is none of its twins; it records the branch's address and the
target. -/
def Obligations.UnpairedBranchTargetExactly : Prop :=
  ∀ i s a T, exec i s = .fault (.unpairedBranchTarget a T) ↔
    (∃ ra, branchReg i = some ra ∧ T = s.getReg ra) ∧ a = s.pc ∧ taken i s = true ∧
      ¬ (s.dir = .reverse ∧ IrreversibleForm i) ∧ ¬ HoldsOneOf (twinsOf i) s T

/-- R141 (decision D10; 90_conflicts.md C9): for a branch, the pairing test on bits (equal in every bit except `ir[16]`) holds
of a target exactly when the word there is a branch with the same condition and registers, reversing or not. -/
def Obligations.PairedTargetIsATwin : Prop :=
  ∀ i s T, (branchReg i).isSome = true → (s.paired (encode i) T = true ↔ HoldsOneOf (twinsOf i) s T)

/-- R96 (decisions D5, D8): after every instruction that does not fault the `pc` stands beside the branch target if the
instruction is a taken branch, beside its own address otherwise, in the direction there is after the instruction. -/
def Obligations.PcAdvancesBesideTargetOrSelf : Prop :=
  ∀ i s t, exec i s = .next t →
    (∀ ra, branchReg i = some ra → taken i s = true → Beside t.dir (s.getReg ra) t.pc) ∧
    (taken i s = false → Beside t.dir s.pc t.pc)

/-- R27, R183 (decisions D6, D8): the direction bit changes exactly when RBEZ or RBLTZ is taken. -/
def Obligations.DirectionTogglesOnlyWhenReversingBranchTaken : Prop :=
  ∀ i s t, exec i s = .next t → (t.dir ≠ s.dir ↔ (reversing i = true ∧ taken i s = true))

/-- R29, R35, R52 (decisions D2, D16, D20, D21): no step changes the program, `ENTRY_PC` or `FINISH_PC`, and an instruction
leaves the run status alone. -/
def Obligations.ProgramAndParametersNeverChange : Prop :=
  (∀ s t, step s = .next t → t.program = s.program ∧ t.entryPc = s.entryPc ∧ t.finishPc = s.finishPc) ∧
  (∀ i s t, exec i s = .next t → SameRun s t)

/-! ## Steps -/

/-- R91 (decisions D5, D6, D12): a step of a running machine that is not at the end of its run executes the instruction
decoded from the word at the `pc`; the meaning includes the advance of the `pc`. -/
def Obligations.StepRunsTheDecodedInstruction : Prop :=
  ∀ s ir i, s.status = .running → ¬ AtEnd s → s.fetch s.pc = some ir → decode ir = .ok i → step s = exec i s

/-- R177, R97, R174, R175, R176 (decisions D9 to D12, D16, D21): what stops a step, in the order of detection: the end of the run, which
changes the status only; no word at the `pc`; an illegal word; an irreversible form in reverse; an unpaired target. -/
def Obligations.OrderOfDetection : Prop :=
  ∀ s, s.status = .running →
    (AtEnd s → step s = .next { s with status := .finished }) ∧
    (¬ AtEnd s → s.fetch s.pc = none → step s = .fault (.noInstruction s.pc)) ∧
    (∀ ir e, ¬ AtEnd s → s.fetch s.pc = some ir → decode ir = .error e →
      step s = .fault (.illegalInstruction s.pc ir)) ∧
    (∀ ir i, ¬ AtEnd s → s.fetch s.pc = some ir → decode ir = .ok i → s.dir = .reverse → IrreversibleForm i →
      step s = .fault (.irreversibleForm s.pc ir)) ∧
    (∀ ir i ra, ¬ AtEnd s → s.fetch s.pc = some ir → decode ir = .ok i → ¬ (s.dir = .reverse ∧ IrreversibleForm i) →
      branchReg i = some ra → taken i s = true → ¬ HoldsOneOf (twinsOf i) s (s.getReg ra) →
      step s = .fault (.unpairedBranchTarget s.pc (s.getReg ra)))

/-- R30 (decisions D12, D21; that the step is refused is the model's choice, log 9): only a running machine takes a step, and
`Finished` and `Faulted` are never left. -/
def Obligations.OnlyARunningMachineSteps : Prop :=
  (∀ s, s.status ≠ .running → step s = .refused .notRunning) ∧
  (∀ s r, step s = .refused r → s.status ≠ .running) ∧
  (∀ n s, s.status ≠ .running → stepsOf n s = s)

/-- R171 (decision D12; the fault is the outcome of the host's step, log 8): a step that faults changes the status, which
records the fault, and nothing else. -/
def Obligations.FaultChangesOnlyTheStatus : Prop :=
  ∀ s f, step s = .fault f → s.status = .running ∧ statusStep s = { s with status := .faulted f }

/-! ## Memory and the invariant -/

/-- R41, R45 (decision D15): a data word read after a write is the value written if the address is the one written, and what
it was otherwise, at every one of the 4096 addresses. -/
def Obligations.DataReadAfterWrite : Prop :=
  ∀ (s : State) a v b, (s.writeMem a v).readMem b = if b = a then v else s.readMem b

/-- The canonical form of data memory is the model's choice (log 2; R28): two data memories in canonical form that read
alike at every address are the same data. -/
def Obligations.CanonicalDataIsDeterminedByItsReads : Prop :=
  ∀ m n : Memory, m.wf → n.wf → (∀ a, m.read a = n.read a) → m = n

/-- The canonical form of both memories (the model's choice, log 2, log 6; R28, R29) is kept by every step from every state
that has it. -/
def Obligations.StepKeepsCanonicalForm : Prop :=
  ∀ s t, Canonical s → step s = .next t → Canonical t

/-- The state at reset has both memories in canonical form (the model's choice, log 2, log 6). -/
def Obligations.ResetIsCanonical : Prop := Canonical State.reset

/-! ## Reversal -/

/-- R100 (derived there from decisions D5 to D9): under the rule's conditions on one step neither step faults, and
`Step(Rev(Step(S))) = Rev(S)`, the end-of-run test ignored. -/
def Obligations.TimeReversalOfAStep : Prop :=
  ∀ s, Canonical s → Undoable s → ∃ t, cycle s = .next t ∧ cycle t.rev = .next s.rev

/-- R100, by induction (derived there): if a program runs through `n` steps that all meet the conditions, then `Rev`, `n` more
steps and `Rev` again give back the starting state. -/
def Obligations.TimeReversalOfARun : Prop :=
  ∀ n s, Canonical s → UndoableFor n s → ∃ t u, cycles n s = .next t ∧ cycles n t.rev = .next u ∧ u.rev = s

/-- R100: `Rev(Rev(S)) = S`. -/
def Obligations.RevTwiceIsTheState : Prop := ∀ s : State, s.rev.rev = s

/-- R100, U14 (derived there): the law fails for a taken RBEZ or RBLTZ whose twin at the target is the non-reversing branch:
the step completes, and the backward image of it completes in another state. -/
def Obligations.ReversalFailsAtANonReversingTwin : Prop :=
  ∀ (ra rb : Reg) s, ra ≠ rb →
    ((s.fetch s.pc = some (encode (.rbez ra rb)) ∧ s.fetch (s.getReg ra) = some (encode (.bez ra rb)) ∧
        s.getReg rb = 0) ∨
      (s.fetch s.pc = some (encode (.rbltz ra rb)) ∧ s.fetch (s.getReg ra) = some (encode (.bltz ra rb)) ∧
        (s.getReg rb).toInt < 0)) →
    ∃ t u, cycle s = .next t ∧ cycle t.rev = .next u ∧ u ≠ s.rev

/-- R54 (derived there from R160): EXCH with two different registers, done twice, restores every register and every data
word, in either direction. -/
def Obligations.ExchTwiceRestores : Prop :=
  ∀ (e a : Reg) s, e ≠ a → ∃ t, execAll [.exch e a, .exch e a] s = .next t ∧
    (∀ r, t.getReg r = s.getReg r) ∧ SameData s t ∧ t.dir = s.dir

/-- R130, R131 (decision D7 for the reverse direction): RR after RL and RL after RR restore the register, and so do twelve
RLs; no other register and no data word changes. -/
def Obligations.RotatesUndoEachOther : Prop :=
  ∀ (r : Reg) s, ∀ is ∈ [[Instr.rl r, .rr r], [.rr r, .rl r], List.replicate 12 (.rl r)],
    ∃ t, execAll is s = .next t ∧ (∀ q, t.getReg q = s.getReg q) ∧ SameData s t

/-- R132, R133: into a clear register SLLX puts `2 * x[rs]` modulo 4096, and SRAX puts `signed(x[rs])` divided by 2 and
rounded toward minus infinity. -/
def Obligations.ShiftsDoubleAndHalve : Prop :=
  ∀ (rd rs : Reg) s, s.dir = .forward → rd ≠ rs → s.getReg rd = 0 →
    (∃ t, exec (.sllx rd rs) s = .next t ∧ (t.getReg rd).toNat = 2 * (s.getReg rs).toNat % 4096) ∧
    (∃ t, exec (.srax rd rs) s = .next t ∧ (t.getReg rd).toInt = (s.getReg rs).toInt / 2)

/-! ## Launch, host and assembler -/

/-- R36, R190, R101 (decisions D15, D20): the state at launch has the run parameters' registers, data memory and
`ENTRY_PC`, direction forward and status `Running`. The second part is the model's choice (log 2 to log 6): the values
`State.reset` takes for the parameters the spec leaves OPEN. -/
def Obligations.LaunchState : Prop :=
  (∀ p : RunParams,
    (∀ r : Reg, (State.launch p).getReg r = p.gprInit[r]) ∧ (State.launch p).pc = p.entryPc ∧
    (State.launch p).dir = .forward ∧ (∀ a, (State.launch p).readMem a = p.dmemInit.read a) ∧
    (State.launch p).status = .running ∧ (∀ a, (State.launch p).fetch a = p.program.fetch a) ∧
    (State.launch p).entryPc = p.entryPc ∧ (State.launch p).finishPc = p.finishPc) ∧
  ((∀ r : Reg, State.reset.getReg r = 0) ∧ (∀ a, State.reset.readMem a = 0) ∧ (∀ a, State.reset.fetch a = none) ∧
    State.reset.pc = 0 ∧ State.reset.entryPc = 0 ∧ State.reset.finishPc = 4095 ∧
    State.reset.dir = .forward ∧ State.reset.status = .running)

/-- R101 (decision D21): a run hands its registers, `pc`, `dir` and data memory to the host exactly when it is `Finished`. -/
def Obligations.HandoverOnlyWhenFinished : Prop :=
  ∀ s : State, s.handover =
    if s.status = .finished then some { gpr := s.gpr, pc := s.pc, dir := s.dir, dmem := s.dmem } else none

/-- R81 (decision D22): the two instructions of `neg r` replace `x[r]` by its two's-complement negation, and undone in
reverse order they restore what was there. -/
def Obligations.NegReplacesByTheNegation : Prop :=
  ∀ (r : Reg) s,
    (s.dir = .forward → ∃ t, execAll (negInstrs r) s = .next t ∧ t.getReg r = -(s.getReg r) ∧ OtherRegs r s t) ∧
    (s.dir = .reverse → ∃ t, execAll (negInstrs r).reverse s = .next t ∧ -(t.getReg r) = s.getReg r ∧ OtherRegs r s t)

/-- R78 (decision D23): the assembler rejects exactly the values outside -256..511, and otherwise places the low 9 bits, which
stand for the value itself up to 255 and for the value minus 512 from 256 on. -/
def Obligations.AssemblerImmediateRange : Prop :=
  (∀ v : Int, asmImm v = none ↔ (v < -256 ∨ 511 < v)) ∧
  (∀ (v : Int) w, asmImm v = some w → w.toInt = if v ≤ 255 then v else v - 512)

/-- R79, R82, R47 (decision D22): instructions placed by the assembler are fetched back, each as its own word at its own
address. -/
def Obligations.AssembledInstructionsAreFetched : Prop :=
  ∀ (origin : Nat) (is : List Instr) (k : Nat) (h : k < is.length), origin + is.length ≤ 4096 →
    (placeInstrs origin is).fetch (BitVec.ofNat 12 (origin + k)) = some (encode is[k])

/-- The host's loading of one word (the model's choice, log 6, log 20; R101): the next step executes exactly the instruction
the decoder reads from that word, and the placing changes no register, `pc`, direction or data word. -/
def Obligations.PlacedWordRunsNext : Prop :=
  ∀ (s : State) nbits w,
    (∀ i, decodeTableWord nbits w = some i → step (s.withFetchWord nbits w) = exec i (s.withFetchWord nbits w)) ∧
    (∀ r, (s.withFetchWord nbits w).getReg r = s.getReg r) ∧ (s.withFetchWord nbits w).pc = s.pc ∧
    (s.withFetchWord nbits w).dir = s.dir ∧ SameData s (s.withFetchWord nbits w)
end

