-- ==== Sys2Proof/Laws/Decode.lean ====
section
/-! SUPPORT. The fields of a packed word (30_encoding.md R62 to R65): each field read from a word that was packed is the
field that was packed, and a word packed from its own fields is the word. -/

namespace Sys2Proof

/-- Every opcode is found again from its bits: no two are alike (R68). -/
theorem ofBits_bits (o : Opcode) : Opcode.ofBits o.bits = some o := by cases o <;> decide

/-- An opcode found has the bits it was found from. -/
theorem bits_of_ofBits {b : BitVec 5} {o : Opcode} (h : Opcode.ofBits b = some o) : o.bits = b := by
  have := List.find?_some h
  simpa using this

@[simp] theorem regOfBits_regBits (r : Reg) : regOfBits (regBits r) = r := by
  apply Fin.ext
  simp only [regOfBits, regBits, BitVec.toNat_ofNat]
  exact Nat.mod_eq_of_lt r.isLt

@[simp] theorem regBits_regOfBits (b : BitVec 3) : regBits (regOfBits b) = b := by
  apply BitVec.eq_of_toNat_eq
  simp only [regOfBits, regBits, BitVec.toNat_ofNat]
  exact Nat.mod_eq_of_lt b.isLt

/-! ## Fields of a packed word -/

section fields
variable (op : BitVec 5) (a b c : BitVec 3) (z : BitVec 6) (m : BitVec 9)

theorem extract_op (x : BitVec 15) : BitVec.extractLsb' 15 5 (op ++ x : BitVec 20) = op := by
  ext i hi
  rw [BitVec.getElem_extractLsb', BitVec.getLsbD_append]
  have : ¬ (15 + i < 15) := by omega
  simp [hi]

theorem extract_fa (x : BitVec 12) : BitVec.extractLsb' 12 3 (op ++ (a ++ x : BitVec 15) : BitVec 20) = a := by
  ext i hi
  rw [BitVec.getElem_extractLsb', BitVec.getLsbD_append, BitVec.getLsbD_append]
  have h1 : 12 + i < 15 := by omega
  simp [h1, hi]

theorem extract_fb (x : BitVec 9) :
    BitVec.extractLsb' 9 3 (op ++ (a ++ (b ++ x : BitVec 12) : BitVec 15) : BitVec 20) = b := by
  ext i hi
  rw [BitVec.getElem_extractLsb', BitVec.getLsbD_append, BitVec.getLsbD_append, BitVec.getLsbD_append]
  have h1 : 9 + i < 15 := by omega
  have h2 : 9 + i < 12 := by omega
  simp [h1, h2, hi]

theorem extract_low9 : BitVec.extractLsb' 0 9 (op ++ (a ++ (b ++ m : BitVec 12) : BitVec 15) : BitVec 20) = m := by
  ext i hi
  rw [BitVec.getElem_extractLsb', BitVec.getLsbD_append, BitVec.getLsbD_append, BitVec.getLsbD_append]
  have h1 : i < 15 := by omega
  have h2 : i < 12 := by omega
  simp [h1, h2, hi]

theorem extract_fc :
    BitVec.extractLsb' 6 3 (op ++ (a ++ (b ++ (c ++ z : BitVec 9) : BitVec 12) : BitVec 15) : BitVec 20) = c := by
  ext i hi
  rw [BitVec.getElem_extractLsb', BitVec.getLsbD_append, BitVec.getLsbD_append, BitVec.getLsbD_append, BitVec.getLsbD_append]
  have h1 : 6 + i < 15 := by omega
  have h2 : 6 + i < 12 := by omega
  have h3 : 6 + i < 9 := by omega
  simp [h1, h2, h3, hi]

theorem extract_fz :
    BitVec.extractLsb' 0 6 (op ++ (a ++ (b ++ (c ++ z : BitVec 9) : BitVec 12) : BitVec 15) : BitVec 20) = z := by
  ext i hi
  rw [BitVec.getElem_extractLsb', BitVec.getLsbD_append, BitVec.getLsbD_append, BitVec.getLsbD_append, BitVec.getLsbD_append]
  have h1 : i < 15 := by omega
  have h2 : i < 12 := by omega
  have h3 : i < 9 := by omega
  simp [h1, h2, h3, hi]

end fields

@[simp] theorem opField_packReg (o : Opcode) (a b c : Reg) : opField (packReg o a b c) = o.bits := extract_op _ _
@[simp] theorem opField_packImm (o : Opcode) (a b : Reg) (m : BitVec 9) : opField (packImm o a b m) = o.bits := extract_op _ _

@[simp] theorem faField_packReg (o : Opcode) (a b c : Reg) : faField (packReg o a b c) = a := by
  rw [faField, packReg, extract_fa, regOfBits_regBits]

@[simp] theorem faField_packImm (o : Opcode) (a b : Reg) (m : BitVec 9) : faField (packImm o a b m) = a := by
  rw [faField, packImm, extract_fa, regOfBits_regBits]

@[simp] theorem fbField_packReg (o : Opcode) (a b c : Reg) : fbField (packReg o a b c) = b := by
  rw [fbField, packReg, extract_fb, regOfBits_regBits]

@[simp] theorem fbField_packImm (o : Opcode) (a b : Reg) (m : BitVec 9) : fbField (packImm o a b m) = b := by
  rw [fbField, packImm, extract_fb, regOfBits_regBits]

@[simp] theorem fcField_packReg (o : Opcode) (a b c : Reg) : fcField (packReg o a b c) = c := by
  rw [fcField, packReg, extract_fc, regOfBits_regBits]

@[simp] theorem fzField_packReg (o : Opcode) (a b c : Reg) : fzField (packReg o a b c) = 0 := extract_fz _ _ _ _ _

@[simp] theorem imm9Field_packImm (o : Opcode) (a b : Reg) (m : BitVec 9) : imm9Field (packImm o a b m) = m :=
  extract_low9 _ _ _ _

/-- The nine low bits of a register-format word: `fc` and six zeros. -/
theorem imm9Field_packReg (o : Opcode) (a b c : Reg) :
    imm9Field (packReg o a b c) = (regBits c ++ (0 : BitVec 6) : BitVec 9) := extract_low9 _ _ _ _

/-! ## A word from its own fields -/

/-- Concatenation as arithmetic: the first operand in the more significant position (R9). -/
theorem toNat_append_add {n k : Nat} (x : BitVec n) (y : BitVec k) : (x ++ y).toNat = x.toNat * 2 ^ k + y.toNat := by
  rw [BitVec.toNat_append, ← Nat.shiftLeft_add_eq_or_of_lt y.isLt, Nat.shiftLeft_eq]

/-- A word is its opcode field, two register fields and nine low bits (R64). -/
theorem packImm_fields {ir : IWord} {o : Opcode} (h : Opcode.ofBits (opField ir) = some o) :
    packImm o (faField ir) (fbField ir) (imm9Field ir) = ir := by
  rw [packImm, bits_of_ofBits h, faField, fbField, regBits_regOfBits, regBits_regOfBits]
  apply BitVec.eq_of_toNat_eq
  have := ir.isLt
  simp only [opField, imm9Field, toNat_append_add, BitVec.extractLsb'_toNat, Nat.shiftRight_eq_div_pow]
  omega

/-- Nine low bits are a third register field and six low bits (R63). -/
theorem low9_fields (ir : IWord) : (ir.extractLsb' 6 3 ++ fzField ir : BitVec 9) = imm9Field ir := by
  apply BitVec.eq_of_toNat_eq
  have := ir.isLt
  simp only [fzField, imm9Field, toNat_append_add, BitVec.extractLsb'_toNat, Nat.shiftRight_eq_div_pow]
  omega

/-- A word whose zero field is zero is its opcode field and three register fields (R63). -/
theorem packReg_fields {ir : IWord} {o : Opcode} (h : Opcode.ofBits (opField ir) = some o) (hz : fzField ir = 0) :
    packReg o (faField ir) (fbField ir) (fcField ir) = ir := by
  have e : packReg o (faField ir) (fbField ir) (fcField ir) = packImm o (faField ir) (fbField ir) (imm9Field ir) := by
    rw [packReg, packImm, ← low9_fields, hz, fcField, regBits_regOfBits]
  rw [e, packImm_fields h]

/-! ## Immediates -/

/-- Sign extension loses nothing: the nine low bits are the field (R67). -/
@[simp] theorem immField_sext12 (v : BitVec 9) : immField (sext12 v) = v := by
  ext i hi
  have h12 : i < 12 := by omega
  rw [immField, sext12, BitVec.getElem_setWidth, BitVec.getLsbD_eq_getElem h12, BitVec.getElem_signExtend, dif_pos hi]

end Sys2Proof
end

