-- ==== Sys2Proof/Laws/State.lean ====
section
/-! SUPPORT. The field lemmas of every update of the state: one for each field and update, true by rfl, and the register
laws. -/

namespace Sys2Proof.Machine

/-! ## setReg -/

@[simp] theorem setReg_pc (s : State) (r : Reg) (v : Word) : (s.setReg r v).pc = s.pc := rfl
@[simp] theorem setReg_dir (s : State) (r : Reg) (v : Word) : (s.setReg r v).dir = s.dir := rfl
@[simp] theorem setReg_dmem (s : State) (r : Reg) (v : Word) : (s.setReg r v).dmem = s.dmem := rfl
@[simp] theorem setReg_status (s : State) (r : Reg) (v : Word) : (s.setReg r v).status = s.status := rfl
@[simp] theorem setReg_program (s : State) (r : Reg) (v : Word) : (s.setReg r v).program = s.program := rfl
@[simp] theorem setReg_entryPc (s : State) (r : Reg) (v : Word) : (s.setReg r v).entryPc = s.entryPc := rfl
@[simp] theorem setReg_finishPc (s : State) (r : Reg) (v : Word) : (s.setReg r v).finishPc = s.finishPc := rfl
@[simp] theorem setReg_readMem (s : State) (r : Reg) (v : Word) (a : Addr) : (s.setReg r v).readMem a = s.readMem a := rfl
@[simp] theorem setReg_fetch (s : State) (r : Reg) (v : Word) (a : Addr) : (s.setReg r v).fetch a = s.fetch a := rfl

/-- A register written holds what was written, whichever register it is (R22). -/
@[simp] theorem getReg_setReg_self (s : State) (r : Reg) (v : Word) : (s.setReg r v).getReg r = v := by
  simp [State.getReg, State.setReg]

/-- A write leaves every other register alone. -/
theorem getReg_setReg_other (s : State) {r q : Reg} (v : Word) (h : q ≠ r) : (s.setReg r v).getReg q = s.getReg q := by
  have hv : r.val ≠ q.val := fun e => h (Fin.ext e.symm)
  simp [State.getReg, State.setReg, hv]

/-- What a register holds after a write, for any two registers. -/
theorem getReg_setReg (s : State) (r q : Reg) (v : Word) :
    (s.setReg r v).getReg q = if q = r then v else s.getReg q := by
  by_cases h : q = r
  · subst h; simp
  · rw [if_neg h, getReg_setReg_other s v h]

/-- Two writes to one register: the later one stays. -/
theorem setReg_setReg (s : State) (r : Reg) (v w : Word) : (s.setReg r v).setReg r w = s.setReg r w := by
  simp [State.setReg]

/-- Writing back what a register holds changes nothing. -/
theorem setReg_getReg (s : State) (r : Reg) : s.setReg r (s.getReg r) = s := by
  simp [State.setReg, State.getReg]

/-! ## writeMem -/

@[simp] theorem writeMem_pc (s : State) (a : Addr) (v : Word) : (s.writeMem a v).pc = s.pc := rfl
@[simp] theorem writeMem_dir (s : State) (a : Addr) (v : Word) : (s.writeMem a v).dir = s.dir := rfl
@[simp] theorem writeMem_gpr (s : State) (a : Addr) (v : Word) : (s.writeMem a v).gpr = s.gpr := rfl
@[simp] theorem writeMem_getReg (s : State) (a : Addr) (v : Word) (r : Reg) : (s.writeMem a v).getReg r = s.getReg r := rfl
@[simp] theorem writeMem_dmem (s : State) (a : Addr) (v : Word) : (s.writeMem a v).dmem = s.dmem.write a v := rfl
@[simp] theorem writeMem_status (s : State) (a : Addr) (v : Word) : (s.writeMem a v).status = s.status := rfl
@[simp] theorem writeMem_program (s : State) (a : Addr) (v : Word) : (s.writeMem a v).program = s.program := rfl
@[simp] theorem writeMem_entryPc (s : State) (a : Addr) (v : Word) : (s.writeMem a v).entryPc = s.entryPc := rfl
@[simp] theorem writeMem_finishPc (s : State) (a : Addr) (v : Word) : (s.writeMem a v).finishPc = s.finishPc := rfl
@[simp] theorem writeMem_fetch (s : State) (a b : Addr) (v : Word) : (s.writeMem a v).fetch b = s.fetch b := rfl

/-! ## setPc -/

@[simp] theorem setPc_pc (s : State) (a : Addr) : (s.setPc a).pc = a := rfl
@[simp] theorem setPc_dir (s : State) (a : Addr) : (s.setPc a).dir = s.dir := rfl
@[simp] theorem setPc_getReg (s : State) (a : Addr) (r : Reg) : (s.setPc a).getReg r = s.getReg r := rfl
@[simp] theorem setPc_dmem (s : State) (a : Addr) : (s.setPc a).dmem = s.dmem := rfl
@[simp] theorem setPc_readMem (s : State) (a b : Addr) : (s.setPc a).readMem b = s.readMem b := rfl
@[simp] theorem setPc_status (s : State) (a : Addr) : (s.setPc a).status = s.status := rfl
@[simp] theorem setPc_program (s : State) (a : Addr) : (s.setPc a).program = s.program := rfl
@[simp] theorem setPc_entryPc (s : State) (a : Addr) : (s.setPc a).entryPc = s.entryPc := rfl
@[simp] theorem setPc_finishPc (s : State) (a : Addr) : (s.setPc a).finishPc = s.finishPc := rfl
@[simp] theorem setPc_fetch (s : State) (a b : Addr) : (s.setPc a).fetch b = s.fetch b := rfl

/-! ## toggleDir -/

@[simp] theorem toggle_toggle (d : Direction) : d.toggle.toggle = d := by cases d <;> rfl
@[simp] theorem toggleDir_pc (s : State) : s.toggleDir.pc = s.pc := rfl
@[simp] theorem toggleDir_dir (s : State) : s.toggleDir.dir = s.dir.toggle := rfl
@[simp] theorem toggleDir_getReg (s : State) (r : Reg) : s.toggleDir.getReg r = s.getReg r := rfl
@[simp] theorem toggleDir_dmem (s : State) : s.toggleDir.dmem = s.dmem := rfl
@[simp] theorem toggleDir_readMem (s : State) (a : Addr) : s.toggleDir.readMem a = s.readMem a := rfl
@[simp] theorem toggleDir_status (s : State) : s.toggleDir.status = s.status := rfl
@[simp] theorem toggleDir_program (s : State) : s.toggleDir.program = s.program := rfl
@[simp] theorem toggleDir_entryPc (s : State) : s.toggleDir.entryPc = s.entryPc := rfl
@[simp] theorem toggleDir_finishPc (s : State) : s.toggleDir.finishPc = s.finishPc := rfl
@[simp] theorem toggleDir_fetch (s : State) (a : Addr) : s.toggleDir.fetch a = s.fetch a := rfl

/-! ## advance -/

@[simp] theorem nextAddr_forward (a : Addr) : Direction.forward.nextAddr a = a + 1 := rfl
@[simp] theorem nextAddr_reverse (a : Addr) : Direction.reverse.nextAddr a = a - 1 := rfl
/-- A step out and a step back along the other direction (R100). -/
@[simp] theorem nextAddr_toggle (d : Direction) (a : Addr) : d.toggle.nextAddr (d.nextAddr a) = a := by
  cases d <;> simp [Direction.toggle, Direction.nextAddr]
@[simp] theorem advance_pc (s : State) : s.advance.pc = s.dir.nextAddr s.pc := rfl
@[simp] theorem advance_dir (s : State) : s.advance.dir = s.dir := rfl
@[simp] theorem advance_gpr (s : State) : s.advance.gpr = s.gpr := rfl
@[simp] theorem advance_getReg (s : State) (r : Reg) : s.advance.getReg r = s.getReg r := rfl
@[simp] theorem advance_dmem (s : State) : s.advance.dmem = s.dmem := rfl
@[simp] theorem advance_readMem (s : State) (a : Addr) : s.advance.readMem a = s.readMem a := rfl
@[simp] theorem advance_status (s : State) : s.advance.status = s.status := rfl
@[simp] theorem advance_program (s : State) : s.advance.program = s.program := rfl
@[simp] theorem advance_entryPc (s : State) : s.advance.entryPc = s.entryPc := rfl
@[simp] theorem advance_finishPc (s : State) : s.advance.finishPc = s.finishPc := rfl
@[simp] theorem advance_fetch (s : State) (a : Addr) : s.advance.fetch a = s.fetch a := rfl

/-! ## finish -/

@[simp] theorem finish_pc (s : State) : s.finish.pc = s.pc := rfl
@[simp] theorem finish_dir (s : State) : s.finish.dir = s.dir := rfl
@[simp] theorem finish_getReg (s : State) (r : Reg) : s.finish.getReg r = s.getReg r := rfl
@[simp] theorem finish_dmem (s : State) : s.finish.dmem = s.dmem := rfl
@[simp] theorem finish_status (s : State) : s.finish.status = .finished := rfl
@[simp] theorem finish_program (s : State) : s.finish.program = s.program := rfl
@[simp] theorem finish_entryPc (s : State) : s.finish.entryPc = s.entryPc := rfl
@[simp] theorem finish_finishPc (s : State) : s.finish.finishPc = s.finishPc := rfl

/-! ## The two exchanges -/

@[simp] theorem exchangeMem_pc (s : State) (r : Reg) (a : Addr) : (s.exchangeMem r a).pc = s.pc := rfl
@[simp] theorem exchangeMem_dir (s : State) (r : Reg) (a : Addr) : (s.exchangeMem r a).dir = s.dir := rfl
@[simp] theorem exchangeMem_dmem (s : State) (r : Reg) (a : Addr) :
    (s.exchangeMem r a).dmem = s.dmem.write a (s.getReg r) := rfl
@[simp] theorem exchangeMem_status (s : State) (r : Reg) (a : Addr) : (s.exchangeMem r a).status = s.status := rfl
@[simp] theorem exchangeMem_program (s : State) (r : Reg) (a : Addr) : (s.exchangeMem r a).program = s.program := rfl
@[simp] theorem exchangeMem_entryPc (s : State) (r : Reg) (a : Addr) : (s.exchangeMem r a).entryPc = s.entryPc := rfl
@[simp] theorem exchangeMem_finishPc (s : State) (r : Reg) (a : Addr) : (s.exchangeMem r a).finishPc = s.finishPc := rfl
theorem exchangeMem_readMem (s : State) (r : Reg) (a b : Addr) :
    (s.exchangeMem r a).readMem b = (s.writeMem a (s.getReg r)).readMem b := rfl
@[simp] theorem exchangeMem_fetch (s : State) (r : Reg) (a b : Addr) : (s.exchangeMem r a).fetch b = s.fetch b := rfl
@[simp] theorem exchangeMem_getReg_self (s : State) (r : Reg) (a : Addr) :
    (s.exchangeMem r a).getReg r = s.readMem a := by simp [State.exchangeMem]
theorem exchangeMem_getReg_other (s : State) {r q : Reg} (a : Addr) (h : q ≠ r) :
    (s.exchangeMem r a).getReg q = s.getReg q := by
  rw [State.exchangeMem, getReg_setReg_other _ _ h, writeMem_getReg]

@[simp] theorem exchangePc_pc (s : State) (ra : Reg) : (s.exchangePc ra).pc = s.getReg ra := rfl
@[simp] theorem exchangePc_dir (s : State) (ra : Reg) : (s.exchangePc ra).dir = s.dir := rfl
@[simp] theorem exchangePc_dmem (s : State) (ra : Reg) : (s.exchangePc ra).dmem = s.dmem := rfl
@[simp] theorem exchangePc_readMem (s : State) (ra : Reg) (a : Addr) : (s.exchangePc ra).readMem a = s.readMem a := rfl
@[simp] theorem exchangePc_status (s : State) (ra : Reg) : (s.exchangePc ra).status = s.status := rfl
@[simp] theorem exchangePc_program (s : State) (ra : Reg) : (s.exchangePc ra).program = s.program := rfl
@[simp] theorem exchangePc_entryPc (s : State) (ra : Reg) : (s.exchangePc ra).entryPc = s.entryPc := rfl
@[simp] theorem exchangePc_finishPc (s : State) (ra : Reg) : (s.exchangePc ra).finishPc = s.finishPc := rfl
@[simp] theorem exchangePc_fetch (s : State) (ra : Reg) (a : Addr) : (s.exchangePc ra).fetch a = s.fetch a := rfl
@[simp] theorem exchangePc_getReg_self (s : State) (ra : Reg) : (s.exchangePc ra).getReg ra = s.pc := by
  simp [State.exchangePc]
theorem exchangePc_getReg_other (s : State) {ra q : Reg} (h : q ≠ ra) : (s.exchangePc ra).getReg q = s.getReg q := by
  rw [State.exchangePc, setPc_getReg, getReg_setReg_other _ _ h]

/-! ## rev -/

@[simp] theorem rev_pc (s : State) : s.rev.pc = s.dir.toggle.nextAddr s.pc := rfl
@[simp] theorem rev_dir (s : State) : s.rev.dir = s.dir.toggle := rfl
@[simp] theorem rev_getReg (s : State) (r : Reg) : s.rev.getReg r = s.getReg r := rfl
@[simp] theorem rev_dmem (s : State) : s.rev.dmem = s.dmem := rfl
@[simp] theorem rev_readMem (s : State) (a : Addr) : s.rev.readMem a = s.readMem a := rfl
@[simp] theorem rev_status (s : State) : s.rev.status = s.status := rfl
@[simp] theorem rev_program (s : State) : s.rev.program = s.program := rfl
@[simp] theorem rev_entryPc (s : State) : s.rev.entryPc = s.entryPc := rfl
@[simp] theorem rev_finishPc (s : State) : s.rev.finishPc = s.finishPc := rfl
@[simp] theorem rev_fetch (s : State) (a : Addr) : s.rev.fetch a = s.fetch a := rfl

/-- `Rev` of a state after its advance stands where the state stood, facing the other way (R100). -/
theorem rev_advance (s : State) : s.advance.rev = { s with dir := s.dir.toggle } := by
  simp [State.advance, State.rev]

end Sys2Proof.Machine
end

