-- ==== Sys2Proof/Laws/Memory.lean ====
section
/-! SUPPORT. The laws of the two memories: what a lookup gives after an insertion or an erasure, and that every operation
keeps the canonical form. -/

namespace Sys2Proof.Machine

variable {α : Type}

/-! ## Lookups -/

theorem lookupCell_insertCell_self (k : Nat) (v : α) (m : List (Nat × α)) : lookupCell k (insertCell k v m) = some v := by
  induction m with
  | nil => simp [insertCell, lookupCell]
  | cons c m ih =>
    obtain ⟨j, w⟩ := c
    unfold insertCell
    split
    · simp [lookupCell]
    · split
      · simp [lookupCell]
      · have : j ≠ k := fun e => by simp_all
        simp [lookupCell, this, ih]

theorem lookupCell_insertCell_other {k j : Nat} (h : j ≠ k) (v : α) (m : List (Nat × α)) :
    lookupCell j (insertCell k v m) = lookupCell j m := by
  induction m with
  | nil => simp [insertCell, lookupCell, h.symm]
  | cons c m ih =>
    obtain ⟨l, w⟩ := c
    unfold insertCell
    split
    · simp [lookupCell, h.symm]
    · split
      · next e => subst e; simp [lookupCell, h.symm]
      · simp [lookupCell, ih]

theorem lookupCell_eraseCell_self (k : Nat) (m : List (Nat × α)) : lookupCell k (eraseCell k m) = none := by
  induction m with
  | nil => rfl
  | cons c m ih =>
    obtain ⟨j, w⟩ := c
    unfold eraseCell
    split
    · exact ih
    · next h => simp [lookupCell, h, ih]

theorem lookupCell_eraseCell_other {k j : Nat} (h : j ≠ k) (m : List (Nat × α)) :
    lookupCell j (eraseCell k m) = lookupCell j m := by
  induction m with
  | nil => rfl
  | cons c m ih =>
    obtain ⟨l, w⟩ := c
    unfold eraseCell
    split
    · next e => subst e; simp [lookupCell, h.symm, ih]
    · simp [lookupCell, ih]

/-! ## Which cells a list holds after an operation -/

theorem mem_insertCell {k : Nat} {v : α} {m : List (Nat × α)} {c : Nat × α} (h : c ∈ insertCell k v m) :
    c = (k, v) ∨ c ∈ m := by
  induction m with
  | nil => simpa [insertCell] using h
  | cons d m ih =>
    obtain ⟨j, w⟩ := d
    unfold insertCell at h
    split at h
    · simpa using h
    · split at h
      · rcases List.mem_cons.1 h with h | h
        · exact .inl h
        · exact .inr (List.mem_cons_of_mem _ h)
      · rcases List.mem_cons.1 h with h | h
        · exact .inr (h ▸ List.mem_cons_self)
        · exact (ih h).imp id (List.mem_cons_of_mem _)

theorem mem_eraseCell {k : Nat} {m : List (Nat × α)} {c : Nat × α} (h : c ∈ eraseCell k m) : c ∈ m := by
  induction m with
  | nil => exact h
  | cons d m ih =>
    obtain ⟨j, w⟩ := d
    unfold eraseCell at h
    split at h
    · exact List.mem_cons_of_mem _ (ih h)
    · rcases List.mem_cons.1 h with h | h
      · exact h ▸ List.mem_cons_self
      · exact List.mem_cons_of_mem _ (ih h)

/-! ## Rising addresses -/

theorem risingCells_insertCell (k : Nat) (v : α) {m : List (Nat × α)} (h : risingCells m) :
    risingCells (insertCell k v m) := by
  induction m with
  | nil => simp [insertCell, risingCells]
  | cons d m ih =>
    obtain ⟨j, w⟩ := d
    obtain ⟨hj, hm⟩ := List.pairwise_cons.1 h
    unfold insertCell
    split
    · next hk =>
      refine List.pairwise_cons.2 ⟨fun c hc => ?_, h⟩
      rcases List.mem_cons.1 hc with e | hc
      · simpa [e] using hk
      · exact Nat.lt_trans hk (hj c hc)
    · next hk =>
      split
      · next e => subst e; exact List.pairwise_cons.2 ⟨hj, hm⟩
      · next hne =>
        refine List.pairwise_cons.2 ⟨fun c hc => ?_, ih hm⟩
        rcases mem_insertCell hc with e | hc
        · subst e; simp only; omega
        · exact hj c hc

theorem risingCells_eraseCell (k : Nat) {m : List (Nat × α)} (h : risingCells m) : risingCells (eraseCell k m) := by
  induction m with
  | nil => exact h
  | cons d m ih =>
    obtain ⟨j, w⟩ := d
    obtain ⟨hj, hm⟩ := List.pairwise_cons.1 h
    unfold eraseCell
    split
    · exact ih hm
    · exact List.pairwise_cons.2 ⟨fun c hc => hj c (mem_eraseCell hc), ih hm⟩

/-! ## The canonical forms -/

/-- A write to data memory keeps its canonical form. -/
theorem memory_wf_write {m : Memory} (h : m.wf) (a : Addr) (v : Word) : (m.write a v).wf := by
  unfold Memory.write
  split
  · exact ⟨risingCells_eraseCell _ h.1, fun c hc => h.2 c (mem_eraseCell hc)⟩
  · next hv =>
    refine ⟨risingCells_insertCell _ _ h.1, fun c hc => ?_⟩
    rcases mem_insertCell hc with e | hc
    · subst e; exact ⟨a.isLt, hv⟩
    · exact h.2 c hc

/-- Loading a word keeps the canonical form of instruction memory. -/
theorem program_wf_load {p : Program} (h : p.wf) (a : Addr) (ir : IWord) : (p.load a ir).wf := by
  refine ⟨risingCells_insertCell _ _ h.1, fun c hc => ?_⟩
  rcases mem_insertCell hc with e | hc
  · subst e; exact a.isLt
  · exact h.2 c hc

/-- Data memory is in canonical form at reset. -/
theorem memory_wf_reset : State.reset.dmem.wf := by decide

/-- A word loaded is the word fetched. -/
theorem fetch_load_self (p : Program) (a : Addr) (ir : IWord) : (p.load a ir).fetch a = some ir :=
  lookupCell_insertCell_self _ _ _

/-- Loading a word leaves every other address as it was. -/
theorem fetch_load_other (p : Program) {a b : Addr} (h : b ≠ a) (ir : IWord) : (p.load a ir).fetch b = p.fetch b :=
  lookupCell_insertCell_other (fun e => h (BitVec.eq_of_toNat_eq e)) _ _

end Sys2Proof.Machine
end

