-- ==== Sys2Proof/Laws/Ops.lean ====
section
/-! SUPPORT. One lemma for each shared operation that says everything it can do, to be cited instead of unfolding it. -/

namespace Sys2Proof.Machine

/-! ## How an instruction ends -/

@[simp] theorem complete_eq (s : State) : complete s = .next s.advance := rfl
@[simp] theorem raise_eq (f : Fault) : raise f = .fault f := rfl

/-- Completing gives exactly the advanced state. -/
theorem complete_next {s t : State} : complete s = .next t ↔ t = s.advance := by
  simp [complete, eq_comm]

/-- Past the check for an irreversible form the rest of the instruction decides. -/
theorem unlessIrreversible_pass {i : Instr} {s : State} (k : Result) (h : s.dir = .reverse → i.irreversibleForm = false) :
    unlessIrreversible i s k = k := by
  unfold unlessIrreversible
  rw [if_neg]
  rintro ⟨hd, hi⟩
  simp [h hd] at hi

/-- A reverse step on an irreversible form faults (R175). -/
theorem unlessIrreversible_stop {i : Instr} {s : State} (k : Result) (hd : s.dir = .reverse)
    (hi : i.irreversibleForm = true) : unlessIrreversible i s k = .fault (.irreversibleForm s.pc (encode i)) := by
  simp [unlessIrreversible, hd, hi]

/-- The check for an irreversible form either stops the instruction or is not seen. -/
theorem unlessIrreversible_cases (i : Instr) (s : State) (k : Result) :
    (s.dir = .reverse ∧ i.irreversibleForm = true ∧
      unlessIrreversible i s k = .fault (.irreversibleForm s.pc (encode i))) ∨
    ((s.dir = .reverse → i.irreversibleForm = false) ∧ unlessIrreversible i s k = k) := by
  by_cases h : s.dir = .reverse ∧ i.irreversibleForm = true
  · exact .inl ⟨h.1, h.2, unlessIrreversible_stop k h.1 h.2⟩
  · refine .inr ⟨fun hd => ?_, unlessIrreversible_pass k fun hd => ?_⟩ <;>
      exact Bool.eq_false_iff.2 fun hi => h ⟨hd, hi⟩

/-- If the checked instruction answers a next state, the check passed and the rest answered it. -/
theorem unlessIrreversible_next {i : Instr} {s t : State} {k : Result} (h : unlessIrreversible i s k = .next t) :
    (s.dir = .reverse → i.irreversibleForm = false) ∧ k = .next t := by
  rcases unlessIrreversible_cases i s k with ⟨_, _, e⟩ | ⟨hp, e⟩
  · rw [e] at h; cases h
  · exact ⟨hp, e ▸ h⟩

/-! ## Register instructions -/

/-- `writeResult` either faults on an irreversible form or writes the one register and advances. -/
theorem writeResult_cases (i : Instr) (rd : Reg) (v : Word) (s : State) :
    (s.dir = .reverse ∧ i.irreversibleForm = true ∧
      writeResult i rd v s = .fault (.irreversibleForm s.pc (encode i))) ∨
    ((s.dir = .reverse → i.irreversibleForm = false) ∧ writeResult i rd v s = .next (s.setReg rd v).advance) :=
  unlessIrreversible_cases i s _

theorem writeResult_next {i : Instr} {rd : Reg} {v : Word} {s t : State} (h : writeResult i rd v s = .next t) :
    t = (s.setReg rd v).advance :=
  complete_next.1 (unlessIrreversible_next h).2

theorem accumulate_eq (i : Instr) (rd : Reg) (v : Word) (s : State) :
    accumulate i rd v s = writeResult i rd (v ^^^ s.getReg rd) s := rfl

theorem accumulate_next {i : Instr} {rd : Reg} {v : Word} {s t : State} (h : accumulate i rd v s = .next t) :
    t = (s.setReg rd (v ^^^ s.getReg rd)).advance :=
  writeResult_next h

/-! ## EXCH -/

theorem execExch_next {r a : Reg} {s t : State} (h : execExch r a s = .next t) :
    t = (s.exchangeMem r (s.getReg a)).advance :=
  complete_next.1 (unlessIrreversible_next h).2

/-! ## Branches -/

/-- If a branch answers a next state it was not taken and only advanced, or it was taken to a paired target and exchanged. -/
theorem branch_next {i : Instr} {c rev : Bool} {ra : Reg} {s t : State} (h : branch i c ra rev s = .next t) :
    (c = false ∧ t = s.advance) ∨
    (c = true ∧ s.paired (encode i) (s.getReg ra) = true ∧
      t = (if rev then (s.exchangePc ra).toggleDir else s.exchangePc ra).advance) := by
  have h2 := (unlessIrreversible_next h).2
  by_cases hc : c = true
  · simp only [hc, if_true] at h2
    by_cases hp : s.paired (encode i) (s.getReg ra) = true
    · simp only [hp, if_true] at h2
      exact .inr ⟨hc, hp, complete_next.1 h2⟩
    · simp [hp] at h2
  · simp only [hc] at h2
    exact .inl ⟨Bool.eq_false_iff.2 hc, complete_next.1 h2⟩

/-- Whether a target is paired does not depend on registers, data memory, `pc` or direction. -/
theorem paired_congr {s t : State} (h : t.program = s.program) (own : IWord) (a : Addr) : t.paired own a = s.paired own a := by
  simp [State.paired, State.fetch, h]

/-! ## The cycle and the step -/

/-- If the cycle answers a next state, it executed the instruction decoded from the word at the `pc`. -/
theorem cycle_next {s t : State} (h : cycle s = .next t) :
    ∃ ir i, s.fetch s.pc = some ir ∧ decode ir = .ok i ∧ exec i s = .next t := by
  unfold cycle at h
  split at h
  · cases h
  · next ir hf =>
    split at h
    · cases h
    · next i hd => exact ⟨ir, i, hf, hd, h⟩

/-- The cycle on a word that decodes is the instruction's meaning. -/
theorem cycle_of_decode {s : State} {ir : IWord} {i : Instr} (hf : s.fetch s.pc = some ir) (hd : decode ir = .ok i) :
    cycle s = exec i s := by
  simp [cycle, hf, hd]

/-- If a step answers a next state, the machine was running, and the run ended or the cycle answered that state. -/
theorem step_next {s t : State} (h : step s = .next t) :
    s.status = .running ∧ ((s.endOfRun = true ∧ t = s.finish) ∨ (s.endOfRun = false ∧ cycle s = .next t)) := by
  unfold step runStep at h
  split at h
  · next hs =>
    refine ⟨hs, ?_⟩
    split at h
    · next he => exact .inl ⟨he, by simpa [eq_comm] using h⟩
    · next he => exact .inr ⟨Bool.eq_false_iff.2 he, h⟩
  · cases h
  · cases h

/-- A step of a running machine that is not at the end of its run is the cycle. -/
theorem step_eq_cycle {s : State} (hs : s.status = .running) (he : s.endOfRun = false) : step s = cycle s := by
  simp [step, runStep, hs, he]

/-- After a word is placed, the machine is running, is not at an end of its run, and fetches that word. -/
theorem placeWord_ready (s : State) (ir : IWord) :
    (s.placeWord ir).status = .running ∧ (s.placeWord ir).endOfRun = false ∧
      (s.placeWord ir).fetch (s.placeWord ir).pc = some ir := by
  have hf : ∀ p : Program, lookupCell s.pc.toNat (p.load s.pc ir) = some ir := fun p => fetch_load_self p _ _
  unfold State.placeWord
  dsimp only
  split
  · next he =>
    split
    · next hd =>
      have hd' : s.dir = .forward := hd
      refine ⟨rfl, ?_, hf _⟩
      simp [State.endOfRun, hd']
    · next hd =>
      have hd' : s.dir = .reverse := hd
      refine ⟨rfl, ?_, hf _⟩
      simp only [State.endOfRun, hd', beq_eq_false_iff_ne, ne_eq]
      bv_omega
  · next he => exact ⟨rfl, Bool.eq_false_iff.2 he, hf _⟩

end Sys2Proof.Machine
end

