-- ==== Sys2Proof/Laws/PerInstr.lean ====
section
/-! SUPPORT. The families of lemmas made one for each constructor of `Instr`. `EncodeOpcode`: the word of an instruction
carries the opcode the table of 30_encoding.md R68 gives its mnemonic. -/

namespace Sys2Proof.Laws.EncodeOpcode

/-- The opcode of R68 for an instruction. -/
def opcode : Instr → Opcode
  | .add _ _ => .add
  | .addi _ _ => .addi
  | .andix _ _ _ => .andix
  | .andx _ _ _ => .andx
  | .bez _ _ => .bez
  | .bltz _ _ => .bltz
  | .exch _ _ => .exch
  | .orix _ _ _ => .orix
  | .orx _ _ _ => .orx
  | .rbez _ _ => .rbez
  | .rbltz _ _ => .rbltz
  | .rl _ => .rl
  | .rr _ => .rr
  | .sllx _ _ => .sllx
  | .srax _ _ => .srax
  | .xor _ _ => .xor
  | .xori _ _ => .xori

/-- The decoder reads from the word of `i` the opcode of `i`. -/
def Statement (i : Instr) : Prop := Opcode.ofBits (opField (encode i)) = some (opcode i)

/-- A word in register format carries its opcode. -/
theorem of_packReg (o : Opcode) (a b c : Reg) : Opcode.ofBits (opField (packReg o a b c)) = some o := by
  rw [opField_packReg, ofBits_bits]

/-- A word in immediate format carries its opcode. -/
theorem of_packImm (o : Opcode) (a b : Reg) (m : BitVec 9) : Opcode.ofBits (opField (packImm o a b m)) = some o := by
  rw [opField_packImm, ofBits_bits]

theorem add (rsd rt : Reg) : Statement (.add rsd rt) := of_packReg _ _ _ _
theorem addi (rsd : Reg) (imm : Word) : Statement (.addi rsd imm) := of_packImm _ _ _ _
theorem andix (rd rs : Reg) (imm : Word) : Statement (.andix rd rs imm) := of_packImm _ _ _ _
theorem andx (rd rs rt : Reg) : Statement (.andx rd rs rt) := of_packReg _ _ _ _
theorem bez (ra rb : Reg) : Statement (.bez ra rb) := of_packImm _ _ _ _
theorem bltz (ra rb : Reg) : Statement (.bltz ra rb) := of_packImm _ _ _ _
theorem exch (re ra : Reg) : Statement (.exch re ra) := of_packImm _ _ _ _
theorem orix (rd rs : Reg) (imm : Word) : Statement (.orix rd rs imm) := of_packImm _ _ _ _
theorem orx (rd rs rt : Reg) : Statement (.orx rd rs rt) := of_packReg _ _ _ _
theorem rbez (ra rb : Reg) : Statement (.rbez ra rb) := of_packImm _ _ _ _
theorem rbltz (ra rb : Reg) : Statement (.rbltz ra rb) := of_packImm _ _ _ _
theorem rl (rsd : Reg) : Statement (.rl rsd) := of_packReg _ _ _ _
theorem rr (rsd : Reg) : Statement (.rr rsd) := of_packReg _ _ _ _
theorem sllx (rd rs : Reg) : Statement (.sllx rd rs) := of_packReg _ _ _ _
theorem srax (rd rs : Reg) : Statement (.srax rd rs) := of_packReg _ _ _ _
theorem xor (rsd rs : Reg) : Statement (.xor rsd rs) := of_packReg _ _ _ _
theorem xori (rsd : Reg) (imm : Word) : Statement (.xori rsd imm) := of_packImm _ _ _ _

end Sys2Proof.Laws.EncodeOpcode
end

