-- ==== Sys2Proof/Tests/Slice0.lean ====
section
/-! SUPPORT. The model's own tests and the witnesses of the statements' hypotheses. Expected results are the numbers of
95_test_vectors.md (V1 to V8, S2, S3) or of the rules' own examples, not the model's answers. -/

namespace Sys2Proof.Tests

open Sys2Proof.Machine Sys2Proof.Claims

/-! ## Helpers -/

/-- A running machine at address 100 of a program that holds `w` there, as the rows of V2 to V8 describe it. -/
def at100 (w : IWord) (d : Direction) (regs : List (Reg × Word)) (others : Program := []) (mem : Memory := []) : State :=
  regs.foldl (fun s c => s.setReg c.1 c.2)
    { State.reset with pc := 100, dir := d, program := Program.load others 100 w, dmem := mem }

/-- One step ends with this `pc`, this direction and these registers, and with every other register as it was. -/
def goesTo (s : State) (pc : Addr) (d : Direction) (regs : List (Reg × Word)) : Bool :=
  match step s with
  | .next t =>
    t.pc == pc && t.dir == d && (List.finRange 8).all fun r =>
      t.getReg r == ((regs.find? fun c => c.1 == r).map (·.2)).getD (s.getReg r)
  | .fault _ => false
  | .refused _ => false

/-- One step faults with `f`. -/
def faultsWith (s : State) (f : Fault) : Bool :=
  match step s with
  | .fault g => g == f
  | .next _ => false
  | .refused _ => false

/-- The data memory after one step. -/
def memoryAfter (s : State) : Option Memory :=
  match step s with
  | .next t => some t.dmem
  | .fault _ => none
  | .refused _ => none

/-! ## WellFormed: an immediate that is no sign-extended 9-bit value is refused (R67) -/

theorem test_wf_refuses_addi : Instr.wf (.addi 1 0x100#12) = false := by decide
theorem test_wf_refuses_xori : Instr.wf (.xori 1 0xEFF#12) = false := by decide
theorem test_wf_refuses_andix : Instr.wf (.andix 1 2 0x800#12) = false := by decide
theorem test_wf_refuses_orix : Instr.wf (.orix 1 2 0x7FF#12) = false := by decide
theorem test_wf_accepts_the_ends_of_the_range :
    (Instr.wf (.addi 1 0x0FF#12) && Instr.wf (.addi 1 0xF00#12) && Instr.wf (.orix 0 7 0xFFF#12)) = true := by decide

/-! ## Decode: words written out bit by bit (V1), extreme fields (V1), words that are none (V8) -/

theorem test_decode_inplace :
    decode 0b01001011011101000000#20 = .ok (.add 3 5) ∧ decode 0b00001010010111111101#20 = .ok (.addi 2 0xFFD#12) ∧
    decode 0b01010000000001000000#20 = .ok (.xor 0 1) ∧ decode 0b00010010010111111111#20 = .ok (.xori 2 0xFFF#12) := by
  decide

theorem test_decode_logic :
    decode 0b11000100001011000000#20 = .ok (.andx 4 1 3) ∧ decode 0b10000100001011110000#20 = .ok (.andix 4 1 0x0F0#12) ∧
    decode 0b11001110001010000000#20 = .ok (.orx 6 1 2) ∧ decode 0b10001101001000000111#20 = .ok (.orix 5 1 0x007#12) := by
  decide

theorem test_decode_shift_rotate :
    decode 0b00100001001000000000#20 = .ok (.rl 1) ∧ decode 0b00101010010000000000#20 = .ok (.rr 2) ∧
    decode 0b11100110001000000000#20 = .ok (.sllx 6 1) ∧ decode 0b11110111010000000000#20 = .ok (.srax 7 2) := by decide

theorem test_decode_branch_exch :
    decode 0b10100100111000000000#20 = .ok (.bez 4 7) ∧ decode 0b10101011010000000000#20 = .ok (.bltz 3 2) ∧
    decode 0b10110101010000000000#20 = .ok (.rbez 5 2) ∧ decode 0b10111101010000000000#20 = .ok (.rbltz 5 2) ∧
    decode 0b10011001010000000000#20 = .ok (.exch 1 2) := by decide

theorem test_decode_extreme_fields :
    decode 0x0FF00#20 = .ok (.addi 7 0xF00#12) ∧ decode 0x0FEFF#20 = .ok (.addi 7 0x0FF#12) ∧
    decode 0xC7FC0#20 = .ok (.andx 7 7 7) ∧ decode 0x88FFF#20 = .ok (.orix 0 7 0xFFF#12) ∧
    decode 0x9F000#20 = .ok (.exch 7 0) ∧ decode 0xBFE00#20 = .ok (.rbltz 7 7) := by decide

theorem test_decode_rejects_unassigned :
    [0x00000#20, 0xFFFFF#20, 0x18000#20, 0x90000#20, 0xE8000#20].all
      (fun w => decode w == .error .unassignedOpcode) = true := by decide

theorem test_decode_rejects_nonzero_zero_fields :
    [0x48041#20, 0xA4E01#20, 0xA4F00#20, 0x2120F#20, 0x21240#20, 0xE6240#20, 0xF7401#20, 0x99401#20, 0xC42C1#20,
      0xCE2BF#20].all (fun w => decode w == .error .nonzeroZeroField) = true := by decide

theorem test_decode_rejects_differing_copies :
    [0x48240#20, 0x09401#20, 0x50240#20, 0x20240#20].all (fun w => (decode w).toOption == none) = true := by decide

theorem test_encode_worked_examples :
    encode (.addi 1 1) = 0x09201#20 ∧ encode (.add 0 1) = 0x48040#20 ∧ encode (.bez 4 7) = 0xA4E00#20 ∧
    encode (.xori 2 0xFFF) = 0x125FF#20 := by decide

theorem test_decodeTableWord :
    decodeTableWord 24 0x48040 = some (.add 0 1) ∧ decodeTableWord 20 0xA4E00 = some (.bez 4 7) ∧
    decodeTableWord 24 0x148040 = none ∧ decodeTableWord 24 0x00000 = none := by decide

/-! ## In-place arithmetic and logic (V2) -/

theorem test_add :
    goesTo (at100 0x4B740 .forward [(3, 0x7FF), (5, 1)]) 101 .forward [(3, 0x800)] ∧
    goesTo (at100 0x4B740 .forward [(3, 0xFFF), (5, 1)]) 101 .forward [(3, 0)] ∧
    goesTo (at100 0x49240 .forward [(1, 0x801)]) 101 .forward [(1, 0x002)] := by decide

theorem test_add_reverse :
    goesTo (at100 0x4B740 .reverse [(3, 0), (5, 1)]) 99 .reverse [(3, 0xFFF)] ∧
    faultsWith (at100 0x49240 .reverse [(1, 2)]) (.irreversibleForm 100 0x49240) := by decide

theorem test_addi :
    goesTo (at100 0x0A500 .forward [(2, 0x0FF)]) 101 .forward [(2, 0xFFF)] ∧
    goesTo (at100 0x0A4FF .forward [(2, 0xF01)]) 101 .forward [(2, 0)] ∧
    goesTo (at100 0x0A5FD .reverse [(2, 0xFFF)]) 99 .reverse [(2, 0x002)] := by decide

theorem test_xor :
    goesTo (at100 0x50040 .forward [(0, 0xA5A), (1, 0x0FF)]) 101 .forward [(0, 0xAA5)] ∧
    goesTo (at100 0x50040 .reverse [(0, 0xAA5), (1, 0x0FF)]) 99 .reverse [(0, 0xA5A)] ∧
    goesTo (at100 0x536C0 .forward [(3, 0x123)]) 101 .forward [(3, 0)] ∧
    faultsWith (at100 0x536C0 .reverse []) (.irreversibleForm 100 0x536C0) := by decide

theorem test_xori :
    goesTo (at100 0x12500 .forward [(2, 0x012)]) 101 .forward [(2, 0xF12)] ∧
    goesTo (at100 0x125FF .reverse [(2, 0xFED)]) 99 .reverse [(2, 0x012)] := by decide

/-! ## Logic accumulated by exclusive or (V3) -/

theorem test_andx :
    goesTo (at100 0xC42C0 .forward [(1, 0xF0F), (3, 0x3C3), (4, 0x111)]) 101 .forward [(4, 0x212)] ∧
    goesTo (at100 0xC42C0 .reverse [(1, 0xF0F), (3, 0x3C3), (4, 0x212)]) 99 .reverse [(4, 0x111)] ∧
    goesTo (at100 0xC12C0 .forward [(1, 0xF0F), (3, 0x3C3)]) 101 .forward [(1, 0xC0C)] ∧
    goesTo (at100 0xC4240 .reverse [(1, 0xF0F), (4, 0xF0F)]) 99 .reverse [(4, 0)] := by decide

theorem test_andx_irreversible :
    faultsWith (at100 0xC12C0 .reverse []) (.irreversibleForm 100 0xC12C0) ∧
    faultsWith (at100 0xC32C0 .reverse []) (.irreversibleForm 100 0xC32C0) := by decide

theorem test_andix :
    goesTo (at100 0x842F0 .forward [(1, 0xABC), (4, 0x00F)]) 101 .forward [(4, 0x0BF)] ∧
    goesTo (at100 0x84300 .forward [(1, 0xABC)]) 101 .forward [(4, 0xA00)] ∧
    goesTo (at100 0x812F0 .forward [(1, 0xABC)]) 101 .forward [(1, 0xA0C)] ∧
    faultsWith (at100 0x812F0 .reverse []) (.irreversibleForm 100 0x812F0) := by decide

theorem test_orx :
    goesTo (at100 0xCE280 .forward [(1, 0x0F0), (2, 0x00F), (6, 0x111)]) 101 .forward [(6, 0x1EE)] ∧
    goesTo (at100 0xCA280 .forward [(1, 0x0F0), (2, 0x00F)]) 101 .forward [(2, 0x0F0)] ∧
    goesTo (at100 0xCA480 .forward [(2, 0x6B1)]) 101 .forward [(2, 0)] ∧
    faultsWith (at100 0xCA280 .reverse []) (.irreversibleForm 100 0xCA280) := by decide

theorem test_orix :
    goesTo (at100 0x8D207 .forward [(1, 0x0F0), (5, 0x001)]) 101 .forward [(5, 0x0F6)] ∧
    goesTo (at100 0x8D3FF .forward [(1, 0x0F0), (5, 0x001)]) 101 .forward [(5, 0xFFE)] ∧
    goesTo (at100 0x8DA07 .forward [(5, 0x0F1)]) 101 .forward [(5, 0x006)] ∧
    faultsWith (at100 0x8DA07 .reverse []) (.irreversibleForm 100 0x8DA07) := by decide

/-! ## Rotates and shifts (V4) -/

theorem test_rl :
    goesTo (at100 0x21200 .forward [(1, 0x801)]) 101 .forward [(1, 0x003)] ∧
    goesTo (at100 0x21200 .reverse [(1, 0x003)]) 99 .reverse [(1, 0x801)] := by decide

theorem test_rr :
    goesTo (at100 0x2A400 .forward [(2, 0x801)]) 101 .forward [(2, 0xC00)] ∧
    goesTo (at100 0x2A400 .reverse [(2, 0xC00)]) 99 .reverse [(2, 0x801)] := by decide

theorem test_sllx :
    goesTo (at100 0xE6200 .forward [(1, 0xC01), (6, 0x005)]) 101 .forward [(6, 0x807)] ∧
    goesTo (at100 0xE1200 .forward [(1, 0xC01)]) 101 .forward [(1, 0x403)] ∧
    faultsWith (at100 0xE1200 .reverse []) (.irreversibleForm 100 0xE1200) := by decide

theorem test_srax :
    goesTo (at100 0xF7400 .forward [(2, 0x802), (7, 0x001)]) 101 .forward [(7, 0xC00)] ∧
    goesTo (at100 0xF7400 .forward [(2, 0x7FF)]) 101 .forward [(7, 0x3FF)] ∧
    goesTo (at100 0xF2400 .forward [(2, 0x802)]) 101 .forward [(2, 0x403)] ∧
    faultsWith (at100 0xF2400 .reverse []) (.irreversibleForm 100 0xF2400) := by decide

/-! ## Exchange (V5, R160) -/

theorem test_exch :
    goesTo (at100 0x99400 .forward [(1, 0x123), (2, 0xFFF)] [] [(4095, 0x456)]) 101 .forward [(1, 0x456)] ∧
    memoryAfter (at100 0x99400 .forward [(1, 0x123), (2, 0xFFF)] [] [(4095, 0x456)]) = some [(4095, 0x123)] ∧
    memoryAfter (at100 0x99400 .reverse [(2, 0x0C8)] [] [(200, 0x02A)]) = some [] := by decide

theorem test_exch_one_register :
    goesTo (at100 0x99200 .forward [(1, 0x0C8)] [] [(200, 0x02A)]) 101 .forward [(1, 0x02A)] ∧
    memoryAfter (at100 0x99200 .forward [(1, 0x0C8)] [] [(200, 0x02A)]) = some [(200, 0x0C8)] ∧
    faultsWith (at100 0x99200 .reverse [(1, 0x0C8)]) (.irreversibleForm 100 0x99200) := by decide

/-! ## Branches (V6) -/

theorem test_bez :
    goesTo (at100 0xA4E00 .forward [(4, 0x0C8)] [(200, 0xA4E00)]) 201 .forward [(4, 0x064)] ∧
    goesTo (at100 0xA4E00 .reverse [(4, 0x0C8)] [(200, 0xA4E00)]) 199 .reverse [(4, 0x064)] ∧
    goesTo (at100 0xA4E00 .forward [(4, 0x0C8), (7, 5)]) 101 .forward [] ∧
    goesTo (at100 0xA4E00 .forward [(4, 0xFFF)] [(4095, 0xA4E00)]) 0 .forward [(4, 0x064)] ∧
    goesTo (at100 0xA4E00 .forward [(4, 0x064)]) 101 .forward [] := by decide

theorem test_bez_faults :
    faultsWith (at100 0xA4E00 .forward [(4, 0x0C8)] [(200, 0xA4C00)]) (.unpairedBranchTarget 100 200) ∧
    faultsWith (at100 0xA4E00 .forward [(4, 0x0C8)] [(200, 0xACE00)]) (.unpairedBranchTarget 100 200) ∧
    faultsWith (at100 0xA4E00 .forward [(4, 0x0C8)]) (.unpairedBranchTarget 100 200) ∧
    faultsWith (at100 0xA4800 .reverse [(4, 5)]) (.irreversibleForm 100 0xA4800) ∧
    goesTo (at100 0xA4800 .forward [] [(0, 0xA4800)]) 1 .forward [(4, 0x064)] := by decide

theorem test_bltz :
    goesTo (at100 0xAB400 .forward [(2, 0x800), (3, 0x12C)] [(300, 0xAB400)]) 301 .forward [(3, 0x064)] ∧
    goesTo (at100 0xAB400 .forward [(2, 0x7FF), (3, 0x12C)] [(300, 0xAB400)]) 101 .forward [] ∧
    goesTo (at100 0xAB400 .forward [(2, 0xFFF), (3, 0x12C)] [(300, 0xBB400)]) 301 .forward [(3, 0x064)] := by decide

theorem test_rbez :
    goesTo (at100 0xB5400 .forward [(5, 0x015)] [(21, 0xA5400)]) 20 .reverse [(5, 0x064)] ∧
    goesTo (at100 0xB5400 .forward [(2, 3), (5, 0x015)] [(21, 0xA5400)]) 101 .forward [] ∧
    goesTo (at100 0xB5E00 .reverse [(5, 0x01B)] [(27, 0xA5E00)]) 28 .forward [(5, 0x064)] ∧
    goesTo (at100 0xB5E00 .reverse [(5, 0x01B), (7, 1)] [(27, 0xA5E00)]) 99 .reverse [] := by decide

theorem test_rbltz :
    goesTo (at100 0xBD400 .forward [(2, 0x900), (5, 0x032)] [(50, 0xBD400)]) 49 .reverse [(5, 0x064)] ∧
    goesTo (at100 0xBD400 .reverse [(2, 0x900), (5, 0x032)] [(50, 0xAD400)]) 51 .forward [(5, 0x064)] ∧
    goesTo (at100 0xBD400 .forward [(2, 0x100), (5, 0x032)] [(50, 0xBD400)]) 101 .forward [] ∧
    faultsWith (at100 0xBDA00 .reverse [(5, 0x900)]) (.irreversibleForm 100 0xBDA00) := by decide

/-! ## The step (R97, R174, R177, V8) -/

theorem test_step_faults_of_fetch_and_decode :
    faultsWith (at100 0x00000 .forward []) (.illegalInstruction 100 0x00000) ∧
    faultsWith ((at100 0x00000 .forward []).setPc 101) (.noInstruction 101) := by decide

theorem test_step_ends_the_run :
    statusStep ((at100 0x09201 .forward []).setPc 4095) = ((at100 0x09201 .forward []).setPc 4095).finish ∧
    statusStep ((at100 0x09201 .reverse []).setPc 4095) = ((at100 0x09201 .reverse []).setPc 4095).finish := by decide

theorem test_placed_word_is_the_first_instruction_after_reset :
    goesTo (State.reset.withFetchWord 24 0x09201) 1 .forward [(1, 1)] ∧
    goesTo ({ State.reset with finishPc := 0 }.withFetchWord 24 0x09201) 1 .forward [(1, 1)] := by decide

/-! ## The assembler (R76 to R82) -/

theorem test_assemble_both_notations :
    (assemble 0 "ADD $3, $5 ; copy\nandix $4 $1 0x0f0\nEXCH $1,$2".toList).map (·.program) =
      some [(0, 0x4B740), (1, 0x842F0), (2, 0x99400)] := by decide

theorem test_assemble_labels_markers_neg :
    assemble 0 "main: start\naddi $3 end\nneg $2\nend: finish".toList =
      some { program := [(0, 0x0B603), (1, 0x125FF), (2, 0x0A401)], entryPc := 0, finishPc := 3 } := by decide

theorem test_assemble_immediate_range :
    asmImm 511 = some 0xFFF#12 ∧ asmImm (-256) = some 0xF00#12 ∧ asmImm 512 = none ∧ asmImm (-257) = none := by decide

/-! ## Witnesses: states and operands that meet the statements' hypotheses -/

/-- A forward and a reverse machine for the witnesses. -/
def fwd : State := at100 0x48040 .forward []
def bwd : State := at100 0x48040 .reverse []

theorem witness_OpcodeMap :
    decode 0x48040#20 = .ok (.add 0 1) ∧ (0x00000#20).toNat / 2 ^ 15 ∈ unassigned ∧
    (0xFFFFF#20).toNat / 2 ^ 15 ∈ unassigned := by decide

theorem witness_ImmediateIsSignExtended :
    (decode 0x0FF00#20 = .ok (.addi 7 0xF00#12) ∧ immediateOf (.addi 7 0xF00#12) = some 0xF00#12) ∧
    (0x0FF#12).toNat ≤ 0x0FF ∧ 0xF00 ≤ (0xF00#12).toNat := by decide

theorem witness_DecodeOfEncode :
    Instr.wf (.addi 7 0x0FF#12) = true ∧ Instr.wf (.orix 7 0 0xF00#12) = true ∧ Instr.wf (.rl 7) = true := by decide

theorem witness_EncodeOfDecode : decode 0x8FFFF#20 = .ok (.orix 7 7 0xFFF#12) := by decide

theorem witness_IllegalWordsExactly :
    (at100 0x48240 .forward []).status = .running ∧ ¬ AtEnd (at100 0x48240 .forward []) ∧
    (at100 0x48240 .forward []).fetch (at100 0x48240 .forward []).pc = some 0x48240 ∧
    decode 0x48240 = .error .copiesDiffer := by
  refine ⟨rfl, ?_, rfl, by decide⟩
  rintro (⟨_, h⟩ | ⟨h, _⟩)
  · exact absurd h (by decide)
  · cases h

theorem witness_AddEffect :
    fwd.dir = .forward ∧ (bwd.dir = .reverse ∧ ¬ (0 : Reg) = 7) ∧ (bwd.dir = .reverse ∧ (7 : Reg) = 7) := by decide

theorem witness_AddiEffect : fwd.dir = .forward ∧ bwd.dir = .reverse := by decide

theorem witness_XorEffect :
    fwd.dir = .forward ∧ (bwd.dir = .reverse ∧ ¬ (7 : Reg) = 0) ∧ (bwd.dir = .reverse ∧ (0 : Reg) = 0) := by decide

theorem witness_XoriEffect : fwd.dir = .forward ∧ bwd.dir = .reverse := by decide

theorem witness_AndxEffect :
    fwd.dir = .forward ∧ (bwd.dir = .reverse ∧ ¬ ((4 : Reg) = 1 ∨ (4 : Reg) = 1)) ∧
    (bwd.dir = .reverse ∧ ((3 : Reg) = 1 ∨ (3 : Reg) = 3)) := by decide

theorem witness_AndixEffect :
    fwd.dir = .forward ∧ (bwd.dir = .reverse ∧ ¬ (4 : Reg) = 1) ∧ (bwd.dir = .reverse ∧ (1 : Reg) = 1) := by decide

theorem witness_OrxEffect :
    fwd.dir = .forward ∧ (bwd.dir = .reverse ∧ ¬ ((6 : Reg) = 1 ∨ (6 : Reg) = 2)) ∧
    (bwd.dir = .reverse ∧ ((2 : Reg) = 2 ∨ (2 : Reg) = 1)) := by decide

theorem witness_OrixEffect :
    fwd.dir = .forward ∧ (bwd.dir = .reverse ∧ ¬ (5 : Reg) = 1) ∧ (bwd.dir = .reverse ∧ (5 : Reg) = 5) := by decide

theorem witness_RlEffect : fwd.dir = .forward ∧ bwd.dir = .reverse := by decide

theorem witness_RrEffect : fwd.dir = .forward ∧ bwd.dir = .reverse := by decide

theorem witness_SllxEffect :
    fwd.dir = .forward ∧ (bwd.dir = .reverse ∧ ¬ (6 : Reg) = 1) ∧ (bwd.dir = .reverse ∧ (1 : Reg) = 1) := by decide

theorem witness_SraxEffect :
    fwd.dir = .forward ∧ (bwd.dir = .reverse ∧ ¬ (7 : Reg) = 2) ∧ (bwd.dir = .reverse ∧ (2 : Reg) = 2) := by decide

theorem witness_ExchEffect :
    (fwd.dir = .reverse → (1 : Reg) ≠ 1) ∧ (bwd.dir = .reverse → (1 : Reg) ≠ 2) ∧
    (bwd.dir = .reverse ∧ (1 : Reg) = 1) := by decide

/-- A branch at 100 and a twin of it at 200, with `$4` = 200, for the witnesses of the branch statements. -/
def paired200 (w twin : IWord) (d : Direction) (v : Word) : State := at100 w d [(4, 200), (7, v)] [(200, twin)]

/-- The word at 200 in `paired200` is one of the instructions. -/
theorem paired200_holds {w twin : IWord} {d : Direction} {v : Word} {j : Instr} {js : List Instr} (hj : j ∈ js)
    (hd : decode twin = .ok j) (hf : (paired200 w twin d v).fetch 200 = some twin) :
    HoldsOneOf js (paired200 w twin d v) 200 := ⟨twin, hf, j, hj, hd⟩

theorem witness_BezEffect :
    (bwd.dir = .reverse ∧ (4 : Reg) = 4) ∧
    ((fwd.dir = .reverse → (4 : Reg) ≠ 4) ∧ ¬ (1 : Word) = 0) ∧
    ((paired200 0xA4E00 0xB4E00 .reverse 0).getReg 7 = 0 ∧ (4 : Reg) ≠ 7 ∧
      HoldsOneOf [.bez 4 7, .rbez 4 7] (paired200 0xA4E00 0xB4E00 .reverse 0) 200) ∧
    (fwd.getReg 7 = 0 ∧ ¬ HoldsOneOf [.bez 4 7, .rbez 4 7] fwd (fwd.getReg 4)) := by
  refine ⟨by decide, by decide, ⟨by decide, by decide, paired200_holds (j := .rbez 4 7) (by decide) (by decide) (by decide)⟩,
    by decide, ?_⟩
  rintro ⟨ir, h, _⟩
  exact absurd (h.symm.trans (by decide : fwd.fetch (fwd.getReg 4) = none)) (by simp)

theorem witness_BltzEffect :
    (bwd.dir = .reverse ∧ (4 : Reg) = 4) ∧
    ((bwd.dir = .reverse → (4 : Reg) ≠ 7) ∧ ¬ (0x7FF : Word).toInt < 0) ∧
    (((paired200 0xACE00 0xACE00 .forward 0x800).getReg 7).toInt < 0 ∧ (4 : Reg) ≠ 7 ∧
      HoldsOneOf [.bltz 4 7, .rbltz 4 7] (paired200 0xACE00 0xACE00 .forward 0x800) 200) ∧
    ((paired200 0xACE00 0xA4E00 .forward 0x800).getReg 4 = 200 ∧
      ¬ HoldsOneOf [.bltz 4 7, .rbltz 4 7] (paired200 0xACE00 0xA4E00 .forward 0x800) 200) := by
  refine ⟨by decide, by decide, ⟨by decide, by decide, paired200_holds (j := .bltz 4 7) (by decide) (by decide) (by decide)⟩,
    by decide, ?_⟩
  rintro ⟨ir, h, j, hj, hd⟩
  have e : ir = 0xA4E00 := Option.some.inj (h.symm.trans (by decide))
  subst e
  have : j = .bez 4 7 := Except.ok.inj (hd.symm.trans (by decide))
  subst this
  exact absurd hj (by decide)

theorem witness_RbezEffect :
    (bwd.dir = .reverse ∧ (4 : Reg) = 4) ∧
    ((bwd.dir = .reverse → (4 : Reg) ≠ 7) ∧ ¬ (0x800 : Word) = 0) ∧
    ((paired200 0xB4E00 0xA4E00 .forward 0).getReg 7 = 0 ∧
      HoldsOneOf [.bez 4 7, .rbez 4 7] (paired200 0xB4E00 0xA4E00 .forward 0) 200) ∧
    (bwd.getReg 7 = 0 ∧ (4 : Reg) ≠ 7 ∧ ¬ HoldsOneOf [.bez 4 7, .rbez 4 7] bwd (bwd.getReg 4)) := by
  refine ⟨by decide, by decide, ⟨by decide, paired200_holds (j := .bez 4 7) (by decide) (by decide) (by decide)⟩,
    by decide, by decide, ?_⟩
  rintro ⟨ir, h, _⟩
  exact absurd (h.symm.trans (by decide : bwd.fetch (bwd.getReg 4) = none)) (by simp)

theorem witness_RbltzEffect :
    (bwd.dir = .reverse ∧ (4 : Reg) = 4) ∧
    ((fwd.dir = .reverse → (4 : Reg) ≠ 4) ∧ ¬ (0 : Word).toInt < 0) ∧
    (((paired200 0xBCE00 0xBCE00 .reverse 0xFFF).getReg 7).toInt < 0 ∧ (4 : Reg) ≠ 7 ∧
      HoldsOneOf [.bltz 4 7, .rbltz 4 7] (paired200 0xBCE00 0xBCE00 .reverse 0xFFF) 200) ∧
    ((0xFFF : Word).toInt < 0 ∧ ¬ HoldsOneOf [.bltz 4 7, .rbltz 4 7] fwd (fwd.getReg 4)) := by
  refine ⟨by decide, by decide, ⟨by decide, by decide, paired200_holds (j := .rbltz 4 7) (by decide) (by decide) (by decide)⟩,
    by decide, ?_⟩
  rintro ⟨ir, h, _⟩
  exact absurd (h.symm.trans (by decide : fwd.fetch (fwd.getReg 4) = none)) (by simp)

/-- Two states that agree on what `ADD $0, $1` reads and differ in another register. -/
theorem witness_RegisterReadsAndWrites :
    SameButRegisters fwd (fwd.setReg 7 5) ∧ (∀ r ∈ readsOf (.add 0 1) fwd, (fwd.setReg 7 5).getReg r = fwd.getReg r) ∧
    exec (.add 0 1) fwd = .next fwd.advance ∧ (7 : Reg) ∉ writesOf (.add 0 1) fwd ∧
    exec (.add 0 0) bwd = .fault (.irreversibleForm 100 (encode (.add 0 0))) :=
  ⟨⟨rfl, rfl, rfl, ⟨rfl, rfl, rfl, rfl⟩⟩, by decide, rfl, by decide, rfl⟩

theorem witness_OnlyExchTouchesDataMemory :
    (∀ e a, Instr.add 0 1 ≠ .exch e a) ∧ exec (.add 0 1) fwd = .next fwd.advance ∧
    exec (.exch 1 1) fwd = .next (fwd.exchangeMem 1 (fwd.getReg 1)).advance ∧
    fwd.dir = .forward ∧ (3 : Reg) ≠ 1 ∧ (3 : Reg) ≠ 2 ∧ (1 : Reg) ≠ 2 ∧ fwd.getReg 3 = 0 ∧ fwd.getReg 1 = 0 :=
  ⟨fun _ _ => Instr.noConfusion, rfl, rfl, rfl, by decide, by decide, by decide, by decide, by decide⟩

theorem witness_IntegerArithmeticLaws :
    fwd.dir = .forward ∧ bwd.dir = .reverse ∧ (0 : Reg) ≠ 7 ∧ (fwd.dir = .reverse → (1 : Reg) ≠ 1) ∧
    (bwd.dir = .reverse → (7 : Reg) ≠ 0 ∧ (7 : Reg) ≠ 6) := by decide

theorem witness_IrreversibleFormExactly :
    exec (.bez 4 4) bwd = .fault (.irreversibleForm 100 (encode (.bez 4 4))) ∧
    bwd.dir = .reverse ∧ IrreversibleForm (.bez 4 4) := ⟨rfl, rfl, rfl⟩

theorem witness_UnpairedBranchTargetExactly :
    faultsWith (at100 0xA4E00 .forward [(4, 0xFFF)]) (.unpairedBranchTarget 100 0xFFF) ∧
    branchReg (.bez 4 7) = some 4 ∧ taken (.bez 4 7) fwd = true ∧ ¬ fwd.dir = .reverse := by decide

theorem witness_PairedTargetIsATwin : (branchReg (.bez 4 7)).isSome = true ∧ (branchReg (.rbltz 0 0)).isSome = true := by
  decide

theorem witness_PcAdvancesBesideTargetOrSelf :
    goesTo (at100 0xB5400 .forward [(5, 0x015)] [(21, 0xA5400)]) 20 .reverse [(5, 0x064)] ∧
    taken (.rbez 5 2) (at100 0xB5400 .forward [(5, 0x015)] [(21, 0xA5400)]) = true ∧ branchReg (.rbez 5 2) = some 5 ∧
    (exec (.add 0 1) fwd matches .next _) ∧ taken (.add 0 1) fwd = false := by decide

theorem witness_DirectionTogglesOnlyWhenReversingBranchTaken :
    exec (.add 0 1) fwd = .next fwd.advance ∧
    goesTo (at100 0xB5400 .forward [(5, 0x015)] [(21, 0xA5400)]) 20 .reverse [(5, 0x064)] ∧
    reversing (.rbez 5 2) = true := ⟨rfl, by decide, rfl⟩

theorem witness_ProgramAndParametersNeverChange :
    step fwd = .next fwd.advance ∧ exec (.add 0 1) fwd = .next fwd.advance := ⟨rfl, rfl⟩

/-- `fwd` is not at the end of its run. -/
theorem fwd_notAtEnd : ¬ AtEnd fwd := by
  rintro (⟨_, h⟩ | ⟨h, _⟩)
  · exact absurd h (by decide)
  · cases h

theorem witness_StepRunsTheDecodedInstruction :
    fwd.status = .running ∧ ¬ AtEnd fwd ∧ fwd.fetch fwd.pc = some 0x48040 ∧ decode 0x48040 = .ok (.add 0 1) :=
  ⟨rfl, fwd_notAtEnd, rfl, by decide⟩

/-- One state for each clause of `OrderOfDetection`: at either end; no word; an illegal word; an irreversible form in
reverse; a taken branch to an unpaired target. -/
theorem witness_OrderOfDetection :
    (AtEnd (fwd.setPc 4095) ∧ AtEnd (bwd.setPc 4095)) ∧
    (¬ AtEnd (fwd.setPc 0) ∧ (fwd.setPc 0).fetch (fwd.setPc 0).pc = none) ∧
    ((at100 0xA4E01 .forward []).fetch 100 = some 0xA4E01 ∧ decode 0xA4E01 = .error .nonzeroZeroField) ∧
    ((at100 0xBDA00 .reverse []).fetch 100 = some 0xBDA00 ∧ decode 0xBDA00 = .ok (.rbltz 5 5) ∧
      IrreversibleForm (.rbltz 5 5)) ∧
    ((at100 0xA4E00 .forward []).fetch 100 = some 0xA4E00 ∧ decode 0xA4E00 = .ok (.bez 4 7) ∧
      taken (.bez 4 7) (at100 0xA4E00 .forward []) = true ∧
      ¬ HoldsOneOf (twinsOf (.bez 4 7)) (at100 0xA4E00 .forward []) ((at100 0xA4E00 .forward []).getReg 4)) := by
  refine ⟨⟨.inl ⟨rfl, rfl⟩, .inr ⟨rfl, by decide⟩⟩, ⟨?_, by decide⟩, ⟨rfl, by decide⟩, ⟨rfl, by decide, rfl⟩,
    rfl, by decide, by decide, ?_⟩
  · rintro (⟨_, h⟩ | ⟨h, _⟩)
    · exact absurd h (by decide)
    · cases h
  · rintro ⟨ir, h, _⟩
    exact absurd (h.symm.trans (by decide : (at100 0xA4E00 .forward []).fetch 0 = none)) (by simp)

theorem witness_OnlyARunningMachineSteps :
    fwd.finish.status ≠ .running ∧ step fwd.finish = .refused .notRunning ∧
    RunStatus.faulted (.noInstruction 0) ≠ .running := ⟨by decide, rfl, by decide⟩

theorem witness_FaultChangesOnlyTheStatus : faultsWith State.reset (.noInstruction 0) := by decide

theorem witness_CanonicalDataIsDeterminedByItsReads :
    Memory.wf [(0, 1), (4095, 0xFFF)] ∧ ∀ a, Memory.read [(0, 1), (4095, 0xFFF)] a = Memory.read [(0, 1), (4095, 0xFFF)] a :=
  ⟨by decide, fun _ => rfl⟩

/-- `fwd` is in canonical form. -/
theorem fwd_canonical : Canonical fwd := ⟨by decide, by decide⟩

theorem witness_StepKeepsCanonicalForm : Canonical fwd ∧ step fwd = .next fwd.advance := ⟨fwd_canonical, rfl⟩

/-- A state whose word at the `pc` is a taken branch with an identical twin at its target. -/
theorem witness_TimeReversalOfAStep :
    Canonical (paired200 0xB4E00 0xB4E00 .forward 0) ∧ Undoable (paired200 0xB4E00 0xB4E00 .forward 0) := by
  refine ⟨⟨by decide, by decide⟩, 0xB4E00, .rbez 4 7, by decide, by decide, by decide, ?_⟩
  intro ra h _
  cases h
  decide

/-- Two steps that can be undone: ADD at 100 and ADDI at 101. -/
def twoSteps : State := at100 0x4B740 .forward [(3, 0xFFF), (5, 1)] [(101, 0x0A5FD)]

theorem witness_TimeReversalOfARun : Canonical twoSteps ∧ UndoableFor 2 twoSteps := by
  refine ⟨⟨by decide, by decide⟩, ⟨0x4B740, .add 3 5, by decide, by decide, by decide, fun _ h => by cases h⟩, ?_⟩
  intro t ht
  have h : exec (.add 3 5) twoSteps = .next t :=
    (cycle_of_decode (ir := 0x4B740) (i := .add 3 5) (by decide) (by decide)).symm.trans ht
  have e : t = (twoSteps.setReg 3 (stepSum .forward (twoSteps.getReg 3) (twoSteps.getReg 5))).advance :=
    writeResult_next (i := .add 3 5) h
  subst e
  exact ⟨⟨0x0A5FD, .addi 2 0xFFD, by decide, by decide, by decide, fun _ h => by cases h⟩, fun _ _ => trivial⟩

theorem witness_ReversalFailsAtANonReversingTwin :
    (4 : Reg) ≠ 7 ∧
    ((paired200 0xB4E00 0xA4E00 .forward 0).fetch 100 = some (encode (.rbez 4 7)) ∧
      (paired200 0xB4E00 0xA4E00 .forward 0).fetch 200 = some (encode (.bez 4 7)) ∧
      (paired200 0xB4E00 0xA4E00 .forward 0).getReg 7 = 0) ∧
    ((paired200 0xBCE00 0xACE00 .reverse 0x800).fetch 100 = some (encode (.rbltz 4 7)) ∧
      (paired200 0xBCE00 0xACE00 .reverse 0x800).fetch 200 = some (encode (.bltz 4 7)) ∧
      ((paired200 0xBCE00 0xACE00 .reverse 0x800).getReg 7).toInt < 0) := by decide

theorem witness_ExchTwiceRestores : (1 : Reg) ≠ 2 := by decide

theorem witness_RotatesUndoEachOther :
    [Instr.rl 7, .rr 7] ∈ [[Instr.rl 7, .rr 7], [.rr 7, .rl 7], List.replicate 12 (.rl 7)] := by decide

theorem witness_ShiftsDoubleAndHalve : fwd.dir = .forward ∧ (6 : Reg) ≠ 1 ∧ fwd.getReg 6 = 0 := by decide

theorem witness_NegReplacesByTheNegation : fwd.dir = .forward ∧ bwd.dir = .reverse := by decide

theorem witness_AssemblerImmediateRange :
    asmImm 255 = some 0x0FF#12 ∧ asmImm 256 = some 0xF00#12 ∧ ((512 : Int) < -256 ∨ 511 < (512 : Int)) ∧
    ((-257 : Int) < -256 ∨ 511 < (-257 : Int)) := by decide

theorem witness_AssembledInstructionsAreFetched : 1 < [Instr.rl 1, .rr 2].length ∧ 4094 + [Instr.rl 1, .rr 2].length ≤ 4096 := by
  decide

theorem witness_PlacedWordRunsNext : decodeTableWord 24 0x48040 = some (.add 0 1) := by decide

end Sys2Proof.Tests
end

section
/-! PROOFS. Facts about the shared operations: the direction, the sign bit, how a branch ends, and data memory in canonical
form, which is determined by what it reads. -/

namespace Sys2Proof.Machine

@[simp] theorem toggle_ne (d : Direction) : d.toggle ≠ d := by cases d <;> decide

/-- The sign bit, which BLTZ and RBLTZ test, is set exactly for the values below zero (R143). -/
theorem isNegative_eq (v : Word) : isNegative v = decide (v.toInt < 0) := by
  rw [← BitVec.msb_eq_toInt]
  rfl

theorem branch_cases (i : Instr) (c rev : Bool) (ra : Reg) (s : State) :
    (∃ t, branch i c ra rev s = .next t) ∨
    (s.dir = .reverse ∧ i.irreversibleForm = true ∧
      branch i c ra rev s = .fault (.irreversibleForm s.pc (encode i))) ∨
    (c = true ∧ branch i c ra rev s = .fault (.unpairedBranchTarget s.pc (s.getReg ra))) := by
  refine (unlessIrreversible_cases i s _).elim (fun h => .inr (.inl h)) fun ⟨_, e⟩ => ?_
  cases c with
  | false => exact .inl ⟨_, e⟩
  | true =>
    by_cases hp : s.paired (encode i) (s.getReg ra) = true
    · exact .inl ⟨_, e.trans (if_pos hp)⟩
    · exact .inr (.inr ⟨rfl, e.trans (if_neg hp)⟩)

/-! ## Data memory in canonical form -/

/-- In a list of cells by rising address the lookup finds each cell. -/
theorem lookupCell_eq_some_iff {α : Type} {m : List (Nat × α)} (h : risingCells m) (k : Nat) (v : α) :
    lookupCell k m = some v ↔ (k, v) ∈ m := by
  induction m with
  | nil => simp [lookupCell]
  | cons c m ih =>
    obtain ⟨j, w⟩ := c
    obtain ⟨hj, hm⟩ := List.pairwise_cons.1 h
    unfold lookupCell
    split
    · next e =>
      subst e
      have hnot : (j, v) ∉ m := fun hc => Nat.lt_irrefl _ (hj (j, v) hc)
      simp [hnot, eq_comm]
    · next hne => simp [ih hm, Ne.symm hne]

/-- The cells of a data memory in canonical form are its words that differ from what an unlisted address holds. -/
theorem mem_iff_read {m : Memory} (h : m.wf) (c : Nat × Word) :
    c ∈ m ↔ c.2 ≠ Config.unwrittenWord ∧ ∃ a : Addr, a.toNat = c.1 ∧ m.read a = c.2 := by
  obtain ⟨k, v⟩ := c
  constructor
  · intro hc
    obtain ⟨hk, hv⟩ := h.2 _ hc
    have hl : lookupCell k m = some v := (lookupCell_eq_some_iff h.1 k v).2 hc
    exact ⟨hv, BitVec.ofNatLT k hk, rfl, congrArg (·.getD Config.unwrittenWord) hl⟩
  · rintro ⟨hv, a, rfl, hr⟩
    rw [← lookupCell_eq_some_iff h.1]
    unfold Memory.read at hr
    cases hl : lookupCell a.toNat m with
    | none => exact absurd (by simpa [hl] using hr.symm) hv
    | some w => simpa [hl] using hr

theorem memory_ext {m n : Memory} (hm : m.wf) (hn : n.wf) (h : ∀ a, m.read a = n.read a) : m = n := by
  have hirr : Std.Irrefl fun c d : Nat × Word => c.1 < d.1 := ⟨fun _ => Nat.lt_irrefl _⟩
  have hanti : Std.Antisymm fun c d : Nat × Word => c.1 < d.1 := ⟨fun _ _ h h' => absurd h' (Nat.lt_asymm h)⟩
  refine hm.1.eq_of_mem_iff hn.1 fun c => ?_
  simp only [mem_iff_read hm, mem_iff_read hn, h]

end Sys2Proof.Machine
end

section
/-! PROOFS. The shape of every instruction and how it can complete: the layer on which statements about all instructions
rest. An instruction writes one register, or is EXCH, or is a branch. -/

namespace Sys2Proof.Claims

open Sys2Proof.Machine

/-! ## The three shapes of an instruction -/

/-- The instruction writes the register `rd` only, with a value `v` that depends on the direction and on the registers the
instruction reads. -/
structure WritesRegister (i : Instr) (rd : Reg) (v : State → Word) : Prop where
  exec_eq : ∀ s, exec i s = writeResult i rd (v s) s
  writes : ∀ s, writesOf i s = [rd]
  value_congr : ∀ s s', s'.dir = s.dir → (∀ r ∈ readsOf i s, s'.getReg r = s.getReg r) → v s' = v s
  notTaken : ∀ s, taken i s = false

/-- The instruction is a branch through `ra` whose condition is `holds` of the register `rb`. -/
structure BranchesOn (i : Instr) (ra rb : Reg) (holds : Word → Bool) : Prop where
  exec_eq : ∀ s, exec i s = branch i (taken i s) ra (reversing i) s
  taken_eq : ∀ s, taken i s = holds (s.getReg rb)
  reads : ∀ s, readsOf i s = if taken i s then [rb, ra] else [rb]
  writes : ∀ s, writesOf i s = if taken i s then [ra] else []
  isBranch : branchReg i = some ra

/-- What an instruction can be. -/
inductive Shape : Instr → Prop
  | register {i : Instr} {rd : Reg} {v : State → Word} (h : WritesRegister i rd v) : Shape i
  | exchange (e a : Reg) : Shape (.exch e a)
  | branch {i : Instr} {ra rb : Reg} {holds : Word → Bool} (h : BranchesOn i ra rb holds) : Shape i

theorem shape_of_instr (i : Instr) : Shape i := by
  cases i
  case exch e a => exact .exchange e a
  case bez ra rb | rbez ra rb =>
    exact .branch (holds := fun v => decide (v = 0)) ⟨fun _ => rfl, fun _ => rfl, fun _ => rfl, fun _ => rfl, rfl⟩
  case bltz ra rb | rbltz ra rb =>
    exact .branch (holds := fun v => decide (v.toInt < 0))
      ⟨fun s => congrArg (branch _ · _ _ s) (isNegative_eq _), fun _ => rfl, fun _ => rfl, fun _ => rfl, rfl⟩
  all_goals
    refine .register ⟨fun _ => rfl, fun _ => rfl, fun s s' hd hr => ?_, fun _ => rfl⟩
    simp only [readsOf, List.forall_mem_cons] at hr
    simp [hd, hr]

/-! ## How an instruction completes -/

/-- The next states an instruction can answer: one register written; the exchange of EXCH; a branch not taken; a branch taken
to a paired target. -/
inductive Completes (i : Instr) (s : State) : State → Prop
  | register {rd : Reg} (v : Word) (hw : writesOf i s = [rd]) (ht : taken i s = false) :
    Completes i s (s.setReg rd v).advance
  | exchange {e a : Reg} (hi : i = .exch e a) : Completes i s (s.exchangeMem e (s.getReg a)).advance
  | passed {ra : Reg} (hb : branchReg i = some ra) (hw : writesOf i s = []) (ht : taken i s = false) :
    Completes i s s.advance
  | jumped {ra : Reg} (hb : branchReg i = some ra) (hw : writesOf i s = [ra]) (ht : taken i s = true)
    (hp : s.paired (encode i) (s.getReg ra) = true) :
    Completes i s (if reversing i then (s.exchangePc ra).toggleDir else s.exchangePc ra).advance

theorem completes_of_exec {i : Instr} {s t : State} (h : exec i s = .next t) : Completes i s t := by
  cases shape_of_instr i with
  | register hi =>
    obtain rfl := writeResult_next (hi.exec_eq s ▸ h)
    exact .register _ (hi.writes s) (hi.notTaken s)
  | exchange e a =>
    obtain rfl := execExch_next h
    exact .exchange rfl
  | branch hi =>
    obtain ⟨ht, rfl⟩ | ⟨ht, hp, rfl⟩ := branch_next (hi.exec_eq s ▸ h)
    · exact .passed hi.isBranch (by simp [hi.writes, ht]) ht
    · exact .jumped hi.isBranch (by simp [hi.writes, ht]) ht hp

/-! ## How an instruction ends -/

/-- An instruction answers a next state, or faults on an irreversible form or on an unpaired branch target; it refuses
nothing. -/
theorem exec_cases (i : Instr) (s : State) :
    (∃ t, exec i s = .next t) ∨
    (s.dir = .reverse ∧ i.irreversibleForm = true ∧ exec i s = .fault (.irreversibleForm s.pc (encode i))) ∨
    (∃ ra, branchReg i = some ra ∧ taken i s = true ∧
      exec i s = .fault (.unpairedBranchTarget s.pc (s.getReg ra))) := by
  cases shape_of_instr i with
  | register hi =>
    rw [hi.exec_eq]
    exact (writeResult_cases i _ _ s).symm.imp (fun h => ⟨_, h.2⟩) .inl
  | exchange e a => exact (unlessIrreversible_cases (.exch e a) s _).symm.imp (fun h => ⟨_, h.2⟩) .inl
  | branch hi =>
    rw [hi.exec_eq]
    exact (branch_cases i _ _ _ s).imp_right (.imp_right fun h => ⟨_, hi.isBranch, h⟩)

theorem exec_ne_refused (i : Instr) (s : State) (r : Refusal) : exec i s ≠ .refused r := by
  obtain ⟨_, e⟩ | ⟨-, -, e⟩ | ⟨_, -, -, e⟩ := exec_cases i s <;> simp [e]

theorem cycle_ne_refused (s : State) (r : Refusal) : cycle s ≠ .refused r := by
  unfold cycle
  split
  · simp
  · split
    · simp
    · exact exec_ne_refused _ _ _

/-! ## What every instruction keeps -/

theorem Completes.sameRun {i : Instr} {s t : State} (h : Completes i s t) : SameRun s t := by
  cases h with
  | register | exchange | passed => exact ⟨rfl, rfl, rfl, rfl⟩
  | jumped => cases reversing i <;> exact ⟨rfl, rfl, rfl, rfl⟩

theorem Completes.dmem_wf {i : Instr} {s t : State} (h : Completes i s t) (hs : s.dmem.wf) : t.dmem.wf := by
  cases h with
  | register | passed => exact hs
  | exchange => exact memory_wf_write hs _ _
  | jumped => cases reversing i <;> exact hs

theorem Completes.canonical {i : Instr} {s t : State} (h : Completes i s t) (hs : Canonical s) : Canonical t :=
  ⟨h.dmem_wf hs.data, h.sameRun.program ▸ hs.program⟩

theorem Completes.getReg_of_not_written {i : Instr} {s t : State} (h : Completes i s t) {r : Reg}
    (hr : r ∉ writesOf i s) : t.getReg r = s.getReg r := by
  cases h with
  | register v hw => exact getReg_setReg_other s v (by simpa [hw] using hr)
  | exchange hi =>
    subst hi
    exact exchangeMem_getReg_other s _ (by simpa [writesOf] using hr)
  | passed => rfl
  | jumped _ hw =>
    have hne := exchangePc_getReg_other s (by simpa [hw] using hr)
    cases reversing i <;> exact hne

theorem Completes.dir_ne_iff {i : Instr} {s t : State} (h : Completes i s t) :
    t.dir ≠ s.dir ↔ (reversing i = true ∧ taken i s = true) := by
  cases h with
  | register _ _ ht | passed _ _ ht => simp [ht]
  | exchange hi => simp [hi, reversing]
  | jumped _ _ ht => cases reversing i <;> simp [ht]

end Sys2Proof.Claims
end

section
/-! PROOFS. Two states that differ in general registers only: what the operations make of them, and how one instruction ends
in both. -/

namespace Sys2Proof.Claims

open Sys2Proof.Machine

namespace SameButRegisters

variable {s s' : State} (h : SameButRegisters s s')

include h

theorem advance : SameButRegisters s.advance s'.advance :=
  ⟨by simp [h.pc, h.dir], h.dir, h.dmem, h.run.program, h.run.entryPc, h.run.finishPc, h.run.status⟩

theorem setReg (r : Reg) (v v' : Word) : SameButRegisters (s.setReg r v) (s'.setReg r v') :=
  ⟨h.pc, h.dir, h.dmem, h.run.program, h.run.entryPc, h.run.finishPc, h.run.status⟩

theorem toggleDir : SameButRegisters s.toggleDir s'.toggleDir :=
  ⟨h.pc, by simp [h.dir], h.dmem, h.run.program, h.run.entryPc, h.run.finishPc, h.run.status⟩

theorem exchangePc {ra : Reg} (hra : s'.getReg ra = s.getReg ra) :
    SameButRegisters (s.exchangePc ra) (s'.exchangePc ra) :=
  ⟨hra, h.dir, h.dmem, h.run.program, h.run.entryPc, h.run.finishPc, h.run.status⟩

theorem exchangeMem {e : Reg} (a : Addr) (he : s'.getReg e = s.getReg e) :
    SameButRegisters (s.exchangeMem e a) (s'.exchangeMem e a) :=
  ⟨h.pc, h.dir, by simp [h.dmem, he], h.run.program, h.run.entryPc, h.run.finishPc, h.run.status⟩

theorem readMem (a : Addr) : s'.readMem a = s.readMem a := congrArg (·.read a) h.dmem

end SameButRegisters

/-- Two outcomes that are both next states, differing in registers outside `ws` only, or that are the same fault. -/
inductive EndsAlike (ws : List Reg) : Result → Result → Prop
  | next {t t' : State} (ht : SameButRegisters t t') (hw : ∀ r ∈ ws, t'.getReg r = t.getReg r) :
    EndsAlike ws (.next t) (.next t')
  | fault (f : Fault) : EndsAlike ws (.fault f) (.fault f)

theorem EndsAlike.of_next {ws : List Reg} {t : State} {o : Result} (h : EndsAlike ws (.next t) o) :
    ∃ t', o = .next t' ∧ SameButRegisters t t' ∧ ∀ r ∈ ws, t'.getReg r = t.getReg r := by
  cases h with
  | next ht hw => exact ⟨_, rfl, ht, hw⟩

theorem EndsAlike.of_fault {ws : List Reg} {f : Fault} {o : Result} (h : EndsAlike ws (.fault f) o) : o = .fault f := by
  cases h
  rfl

section
variable {s s' : State} {i : Instr} {ws : List Reg} (h : SameButRegisters s s')
include h

theorem endsAlike_complete (hw : ∀ r ∈ ws, s'.getReg r = s.getReg r) : EndsAlike ws (complete s) (complete s') :=
  .next h.advance hw

theorem endsAlike_unlessIrreversible {k k' : Result} (hk : EndsAlike ws k k') :
    EndsAlike ws (unlessIrreversible i s k) (unlessIrreversible i s' k') := by
  unfold unlessIrreversible
  rw [h.dir, h.pc]
  split
  · exact .fault _
  · exact hk

theorem endsAlike_writeResult (rd : Reg) (v : Word) :
    EndsAlike [rd] (writeResult i rd v s) (writeResult i rd v s') :=
  endsAlike_unlessIrreversible h (endsAlike_complete (h.setReg rd v v) (by simp))

theorem endsAlike_exch {e a : Reg} (he : s'.getReg e = s.getReg e) (ha : s'.getReg a = s.getReg a) :
    EndsAlike [e] (execExch e a s) (execExch e a s') := by
  unfold execExch
  rw [ha]
  exact endsAlike_unlessIrreversible h (endsAlike_complete (h.exchangeMem _ he) (by simp [h.readMem]))

theorem endsAlike_branch_notTaken (ra : Reg) (rev : Bool) :
    EndsAlike [] (branch i false ra rev s) (branch i false ra rev s') :=
  endsAlike_unlessIrreversible h (endsAlike_complete h (by simp))

theorem endsAlike_branch_taken {ra : Reg} (hra : s'.getReg ra = s.getReg ra) (rev : Bool) :
    EndsAlike [ra] (branch i true ra rev s) (branch i true ra rev s') := by
  refine endsAlike_unlessIrreversible h ?_
  simp only [if_true, hra, paired_congr h.run.program, h.pc]
  split
  · have hpc := h.exchangePc hra
    cases rev
    · exact endsAlike_complete hpc (by simp [h.pc])
    · exact endsAlike_complete hpc.toggleDir (by simp [h.pc])
  · exact .fault _

/-- How an instruction ends depends on no register it does not read (R23). -/
theorem endsAlike_exec (hr : ∀ r ∈ readsOf i s, s'.getReg r = s.getReg r) :
    EndsAlike (writesOf i s) (exec i s) (exec i s') := by
  cases shape_of_instr i with
  | register hi =>
    rw [hi.exec_eq, hi.exec_eq, hi.writes, hi.value_congr s s' h.dir hr]
    exact endsAlike_writeResult h _ _
  | exchange e a => exact endsAlike_exch h (hr e (by simp [readsOf])) (hr a (by simp [readsOf]))
  | @branch _ ra rb holds hi =>
    have hrb : s'.getReg rb = s.getReg rb := hr rb (by rw [hi.reads]; split <;> simp)
    have htk : taken i s' = taken i s := by rw [hi.taken_eq, hi.taken_eq, hrb]
    rw [hi.exec_eq, hi.exec_eq, hi.writes, htk]
    cases ht : taken i s with
    | false => exact endsAlike_branch_notTaken h ra _
    | true => exact endsAlike_branch_taken h (hr ra (by simp [hi.reads, ht])) _

end

end Sys2Proof.Claims
end

section
/-! PROOFS. The statements of 10_state.md. -/

namespace Sys2Proof.Claims

open Sys2Proof.Machine

/-- A step that answers a next state ends the run or completes an instruction. -/
theorem finish_or_completes_of_step {s t : State} (h : step s = .next t) : t = s.finish ∨ ∃ i, Completes i s t := by
  obtain ⟨-, ⟨-, e⟩ | ⟨-, hc⟩⟩ := step_next h
  · exact .inl e
  · obtain ⟨_, i, -, -, he⟩ := cycle_next hc
    exact .inr ⟨i, completes_of_exec he⟩

/-- Settles O41: an instruction that completes keeps the canonical form, and the end of the run changes the status only. -/
theorem stepKeepsCanonicalForm : Obligations.StepKeepsCanonicalForm := by
  intro s t hs h
  obtain rfl | ⟨i, hc⟩ := finish_or_completes_of_step h
  · exact ⟨hs.data, hs.program⟩
  · exact hc.canonical hs

/-- Settles O25: the two clauses are the frame of a completing instruction and its ending alike in two states that agree on
what it reads. -/
theorem registerReadsAndWrites : Obligations.RegisterReadsAndWrites := by
  refine ⟨fun i s t h r hr => (completes_of_exec h).getReg_of_not_written hr, fun i s s' hs hr => ?_⟩
  have halike := endsAlike_exec hs hr
  exact ⟨fun t ht => (ht ▸ halike).of_next, fun f hf => (hf ▸ halike).of_fault⟩

/-- Settles O33: of the ways to complete, only a taken reversing branch toggles the direction. -/
theorem directionTogglesOnlyWhenReversingBranchTaken : Obligations.DirectionTogglesOnlyWhenReversingBranchTaken :=
  fun _ _ _ h => (completes_of_exec h).dir_ne_iff

/-- Settles O34: neither the end of the run nor an instruction writes them. -/
theorem programAndParametersNeverChange : Obligations.ProgramAndParametersNeverChange := by
  refine ⟨fun s t h => ?_, fun _ _ _ h => (completes_of_exec h).sameRun⟩
  obtain rfl | ⟨i, hc⟩ := finish_or_completes_of_step h
  · exact ⟨rfl, rfl, rfl⟩
  · exact ⟨hc.sameRun.program, hc.sameRun.entryPc, hc.sameRun.finishPc⟩

/-- Settles O40: both lists hold the cells that their reads determine, in the order of their addresses. -/
theorem canonicalDataIsDeterminedByItsReads : Obligations.CanonicalDataIsDeterminedByItsReads :=
  fun _ _ hm hn h => memory_ext hm hn h

theorem step_of_not_running {s : State} (hs : s.status ≠ .running) : step s = .refused .notRunning := by
  unfold step runStep
  split
  · contradiction
  · rfl
  · rfl

theorem status_of_step_refused {s : State} {r : Refusal} (h : step s = .refused r) : s.status ≠ .running := by
  intro hs
  cases he : s.endOfRun with
  | true => simp [step, runStep, hs, he] at h
  | false => exact cycle_ne_refused s r (step_eq_cycle hs he ▸ h)

theorem stepsOf_of_not_running {s : State} (hs : s.status ≠ .running) (n : Nat) : stepsOf n s = s := by
  induction n with
  | zero => rfl
  | succ n ih =>
    have hstep : statusStep s = s := congrArg s.settle (step_of_not_running hs)
    rw [stepsOf, hstep, ih]

/-- Settles O37: a machine that is not running is refused, and the cycle of a running one refuses nothing. -/
theorem onlyARunningMachineSteps : Obligations.OnlyARunningMachineSteps :=
  ⟨fun _ => step_of_not_running, fun _ _ => status_of_step_refused, fun n _ hs => stepsOf_of_not_running hs n⟩

/-- Settles O50: every field of the launch is a parameter, and those of the reset are the defaults. -/
theorem launchState : Obligations.LaunchState := by
  refine ⟨fun p => ⟨fun _ => rfl, rfl, rfl, fun _ => rfl, rfl, fun _ => rfl, rfl, rfl⟩, ?_⟩
  exact ⟨fun r => Vector.getElem_replicate .., fun _ => rfl, fun _ => rfl, rfl, rfl, rfl, rfl, rfl⟩

/-- Settles O42: at reset both memories list no cell. -/
theorem resetIsCanonical : Obligations.ResetIsCanonical := ⟨memory_wf_reset, by decide⟩

end Sys2Proof.Claims
end

section
/-! PROOFS. What a word of data memory reads after a write. -/

namespace Sys2Proof.Machine

theorem memory_read_write_self (m : Memory) (a : Addr) (v : Word) : (m.write a v).read a = v := by
  unfold Memory.read Memory.write
  split
  · next hv => simp [lookupCell_eraseCell_self, hv]
  · simp [lookupCell_insertCell_self]

theorem memory_read_write_other (m : Memory) {a b : Addr} (h : b ≠ a) (v : Word) : (m.write a v).read b = m.read b := by
  have hne : b.toNat ≠ a.toNat := fun e => h (BitVec.eq_of_toNat_eq e)
  unfold Memory.read Memory.write
  split
  · rw [lookupCell_eraseCell_other hne]
  · rw [lookupCell_insertCell_other hne]

@[simp] theorem readMem_writeMem_self (s : State) (a : Addr) (v : Word) : (s.writeMem a v).readMem a = v :=
  memory_read_write_self s.dmem a v

theorem readMem_writeMem_other (s : State) {a b : Addr} (h : b ≠ a) (v : Word) :
    (s.writeMem a v).readMem b = s.readMem b :=
  memory_read_write_other s.dmem h v

end Sys2Proof.Machine
end

section
/-! PROOFS. The frames of an instruction that writes one register and of EXCH. -/

namespace Sys2Proof.Claims

open Sys2Proof.Machine

theorem beside_nextAddr (d : Direction) (a : Addr) : Beside d a (d.nextAddr a) :=
  ⟨fun h => h ▸ rfl, fun h => h ▸ rfl⟩

theorem writesOnly_setReg_advance (s : State) (rd : Reg) (v : Word) : WritesOnly rd v s (s.setReg rd v).advance where
  value := getReg_setReg_self s rd v
  others _ h := getReg_setReg_other s v h
  data _ := rfl
  dir := rfl
  pc := beside_nextAddr _ _
  run := ⟨rfl, rfl, rfl, rfl⟩

/-- Past the check for an irreversible form, an instruction that writes one register completes and does only that. -/
theorem writeResult_of_pass {i : Instr} {s : State} (rd : Reg) (v : Word)
    (h : s.dir = .reverse → i.irreversibleForm = false) :
    ∃ t, writeResult i rd v s = .next t ∧ WritesOnly rd v s t :=
  ⟨_, unlessIrreversible_pass _ h, writesOnly_setReg_advance s rd v⟩

theorem exchanged_exchangeMem_advance (s : State) (e a : Reg) :
    Exchanged e a s (s.exchangeMem e (s.getReg a)).advance where
  register := exchangeMem_getReg_self s e _
  word := readMem_writeMem_self s _ _
  otherRegs _ h := exchangeMem_getReg_other s _ h
  otherWords _ h := readMem_writeMem_other s h _
  dir := rfl
  pc := beside_nextAddr _ _
  run := ⟨rfl, rfl, rfl, rfl⟩

end Sys2Proof.Claims
end

section
/-! PROOFS. EXCH: when it completes, and what a second EXCH makes of the first. -/

namespace Sys2Proof.Claims

open Sys2Proof.Machine

variable {e a : Reg}

theorem exec_exch (s : State) (h : s.dir = .reverse → e ≠ a) : ∃ t, exec (.exch e a) s = .next t ∧ Exchanged e a s t :=
  ⟨_, unlessIrreversible_pass _ fun hd => beq_false_of_ne (h hd), exchanged_exchangeMem_advance s e a⟩

theorem exchanged_of_exec {s t : State} (h : exec (.exch e a) s = .next t) : Exchanged e a s t :=
  execExch_next h ▸ exchanged_exchangeMem_advance s e a

/-- A second exchange through two different registers puts the register and the word back, whatever was done between the
two, as long as it left both registers and data memory alone. -/
theorem Exchanged.restores {s t t' u : State} (hea : e ≠ a) (hst : Exchanged e a s t) (hwait : SameData t t')
    (he : t'.getReg e = t.getReg e) (ha : t'.getReg a = t.getReg a) (htu : Exchanged e a t' u) :
    u.getReg e = s.getReg e ∧ SameData s u := by
  have haddr : t'.getReg a = s.getReg a := ha.trans (hst.otherRegs a hea.symm)
  refine ⟨?_, fun b => ?_⟩
  · rw [htu.register, haddr, hwait, hst.word]
  · by_cases hb : b = s.getReg a
    · rw [hb, ← haddr, htu.word, he, hst.register, haddr]
    · rw [htu.otherWords b (haddr ▸ hb), hwait, hst.otherWords b hb]

end Sys2Proof.Claims
end

section
/-! PROOFS. Every instruction but EXCH, and data memory: it keeps every word, and it ends alike whatever the words are. -/

namespace Sys2Proof.Claims

open Sys2Proof.Machine

theorem Completes.sameData {i : Instr} {s t : State} (h : Completes i s t) (hi : ∀ e a, i ≠ .exch e a) : SameData s t := by
  cases h with
  | register | passed => exact fun _ => rfl
  | exchange he => exact absurd he (hi _ _)
  | jumped => cases reversing i <;> exact fun _ => rfl

/-! ## Replacing data memory before or after -/

theorem withData_unlessIrreversible (m : Memory) (i : Instr) (s : State) (k : Result) :
    unlessIrreversible i { s with dmem := m } (withData m k) = withData m (unlessIrreversible i s k) := by
  obtain ⟨hd, hi, e⟩ | ⟨hp, e⟩ := unlessIrreversible_cases i s k
  · rw [e]
    exact unlessIrreversible_stop _ hd hi
  · rw [e]
    exact unlessIrreversible_pass _ hp

theorem withData_writeResult (m : Memory) (i : Instr) (rd : Reg) (v : Word) (s : State) :
    writeResult i rd v { s with dmem := m } = withData m (writeResult i rd v s) :=
  withData_unlessIrreversible m i s (complete (s.setReg rd v))

theorem withData_branch (m : Memory) (i : Instr) (c rev : Bool) (ra : Reg) (s : State) :
    branch i c ra rev { s with dmem := m } = withData m (branch i c ra rev s) := by
  refine .trans (congrArg (unlessIrreversible i _) ?_) (withData_unlessIrreversible m i s _)
  cases c with
  | false => rfl
  | true =>
    rw [if_pos rfl, if_pos rfl, apply_ite (withData m)]
    cases rev <;> rfl

/-- No instruction but EXCH sees what data memory holds (R42). -/
theorem exec_withData {i : Instr} (hi : ∀ e a, i ≠ .exch e a) (m : Memory) (s : State) :
    exec i { s with dmem := m } = withData m (exec i s) := by
  cases shape_of_instr i with
  | @register _ rd v h =>
    rw [h.exec_eq, h.exec_eq, h.value_congr s { s with dmem := m } rfl fun _ _ => rfl]
    exact withData_writeResult m i rd _ s
  | exchange e a => exact absurd rfl (hi e a)
  | @branch _ ra _ _ h =>
    have ht : taken i { s with dmem := m } = taken i s := by rw [h.taken_eq, h.taken_eq]; rfl
    rw [h.exec_eq, h.exec_eq, ht]
    exact withData_branch m i _ _ ra s

end Sys2Proof.Claims
end

section
/-! PROOFS. The statements of 20_memory.md. -/

namespace Sys2Proof.Claims

open Sys2Proof.Machine

theorem execAll_cons_of_next {i : Instr} {s t : State} (h : exec i s = .next t) (is : List Instr) :
    execAll (i :: is) s = execAll is t := by
  simp [execAll, h]

/-- Adding to a clear register copies (R42). -/
theorem exec_add_of_clear {copy original : Reg} {s : State} (hd : s.dir = .forward) (hc : s.getReg copy = 0) :
    ∃ t, exec (.add copy original) s = .next t ∧ WritesOnly copy (s.getReg original) s t := by
  have hsum : stepSum s.dir (s.getReg copy) (s.getReg original) = s.getReg original := by simp [hd, hc, stepSum]
  have hexec : exec (.add copy original) s = writeResult (.add copy original) copy (s.getReg original) s :=
    congrArg (writeResult _ copy · s) hsum
  rw [hexec]
  exact writeResult_of_pass copy _ fun h => by simp [hd] at h

/-- EXCH, ADD, EXCH with clear registers copies a data word (R42): the second exchange undoes the first, and the copy was
taken between them. -/
theorem copyWord_idiom {copy e a : Reg} {s : State} (hd : s.dir = .forward) (hce : copy ≠ e) (hca : copy ≠ a) (hea : e ≠ a)
    (hcopy : s.getReg copy = 0) (he : s.getReg e = 0) :
    ∃ t, execAll [.exch e a, .add copy e, .exch e a] s = .next t ∧
      t.getReg copy = s.readMem (s.getReg a) ∧ t.getReg e = 0 ∧ SameData s t := by
  obtain ⟨t₁, h₁, hfirst⟩ := exec_exch s fun _ => hea
  obtain ⟨t₂, h₂, hadd⟩ := exec_add_of_clear (original := e) (hfirst.dir.trans hd) ((hfirst.otherRegs copy hce).trans hcopy)
  obtain ⟨t, h₃, hlast⟩ := exec_exch t₂ fun _ => hea
  obtain ⟨hreg, hdata⟩ :=
    hfirst.restores hea hadd.data (hadd.others e hce.symm) (hadd.others a hca.symm) hlast
  refine ⟨t, ?_, ?_, hreg.trans he, hdata⟩
  · rw [execAll_cons_of_next h₁, execAll_cons_of_next h₂, execAll_cons_of_next h₃, execAll]
  · rw [hlast.otherRegs copy hce, hadd.value, hfirst.register]

/-- Settles O26: the frame of a completing instruction, its ending alike in every data memory, the exchange, and the two
idioms. -/
theorem onlyExchTouchesDataMemory : Obligations.OnlyExchTouchesDataMemory := by
  refine ⟨fun i s t hi h => (completes_of_exec h).sameData hi, fun i s m hi => exec_withData hi m s,
    fun e a s t h => ?_, fun copy original s hd hne hc => ?_, fun copy e a s => copyWord_idiom⟩
  · have hx := exchanged_of_exec h
    exact ⟨hx.register, hx.word⟩
  · obtain ⟨t, h, hadd⟩ := exec_add_of_clear (original := original) hd hc
    exact ⟨t, h, hadd.value, hadd.others original hne.symm⟩

/-- Settles O39: a write inserts a cell or, for the value of an unlisted word, erases it, and the lookup sees either at that
address only. -/
theorem dataReadAfterWrite : Obligations.DataReadAfterWrite := by
  intro s a v b
  split
  · next h => rw [h, readMem_writeMem_self]
  · next h => exact readMem_writeMem_other s h v

/-- Settles O47: the second exchange restores what the first changed, with nothing done between them. -/
theorem exchTwiceRestores : Obligations.ExchTwiceRestores := by
  intro e a s hea
  obtain ⟨t, h₁, hfirst⟩ := exec_exch s fun _ => hea
  obtain ⟨u, h₂, hsecond⟩ := exec_exch t fun _ => hea
  obtain ⟨hreg, hdata⟩ := hfirst.restores hea (fun _ => rfl) rfl rfl hsecond
  refine ⟨u, ?_, fun r => ?_, hdata, hsecond.dir.trans hfirst.dir⟩
  · rw [execAll_cons_of_next h₁, execAll_cons_of_next h₂, execAll]
  · by_cases hr : r = e
    · rw [hr, hreg]
    · rw [hsecond.otherRegs r hr, hfirst.otherRegs r hr]

end Sys2Proof.Claims
end

section
/-! PROOFS. The word of an instruction: sign-extended immediates, packed words as numbers, and the decoder and the encoder as
inverses of each other. -/

namespace Sys2Proof

/-! ## Sign extension (R67) -/

theorem toNat_sext12 (v : BitVec 9) : (sext12 v).toNat = if 256 ≤ v.toNat then v.toNat + 3584 else v.toNat := by
  have hv := v.isLt
  rw [sext12, BitVec.toNat_signExtend, BitVec.msb_eq_decide, BitVec.toNat_setWidth, Nat.mod_eq_of_lt (by omega)]
  split <;> simp_all

/-- Sign extension gives exactly the values of R67's range. -/
theorem immInRange_sext12 (v : BitVec 9) : immInRange (sext12 v) = true := by
  have hv := v.isLt
  simp only [immInRange, toNat_sext12, decide_eq_true_eq]
  split <;> omega

/-- An immediate in range is recovered from its nine low bits. -/
theorem sext12_immField {imm : Word} (h : immInRange imm = true) : sext12 (immField imm) = imm := by
  have himm := imm.isLt
  simp only [immInRange, decide_eq_true_eq] at h
  apply BitVec.eq_of_toNat_eq
  rw [toNat_sext12, immField, BitVec.toNat_setWidth]
  split <;> omega

/-! ## What the decoder demands of a word (R70, R71) -/

theorem needZero_eq_ok {z : Bool} {k : Except Illegal Instr} {i : Instr} :
    needZero z k = .ok i ↔ z = true ∧ k = .ok i := by
  cases z <;> simp [needZero]

theorem needCopies_eq_ok {ir : IWord} {k : Except Illegal Instr} {i : Instr} :
    needCopies ir k = .ok i ↔ faField ir = fbField ir ∧ k = .ok i := by
  unfold needCopies
  split <;> simp_all

/-- With `fc` zero the register format is format Z9: nine zero bits (R63, R65). -/
theorem packReg_zero (o : Opcode) (a b : Reg) : packReg o a b 0 = packImm o a b 0 := by
  have hz : regBits 0 ++ (0 : BitVec 6) = (0 : BitVec 9) := by decide
  rw [packReg, packImm, hz]

/-- A word with two equal copies of `rsd` is packed from the one register twice (R70). -/
theorem packImm_of_copies {ir : IWord} {o : Opcode} (h : Opcode.ofBits (opField ir) = some o)
    (hc : faField ir = fbField ir) : packImm o (faField ir) (faField ir) (imm9Field ir) = ir := by
  have hp := packImm_fields h
  rwa [← hc] at hp

theorem packReg_of_copies {ir : IWord} {o : Opcode} (h : Opcode.ofBits (opField ir) = some o) (hz : fzField ir = 0)
    (hc : faField ir = fbField ir) : packReg o (faField ir) (faField ir) (fcField ir) = ir := by
  have hp := packReg_fields h hz
  rwa [← hc] at hp

/-! ## Decoder and encoder -/

/-- A word the decoder accepts is packed from its own fields, which are the operands. -/
theorem wf_and_encode_of_decode {ir : IWord} {i : Instr} (h : decode ir = .ok i) : i.wf = true ∧ encode i = ir := by
  unfold decode at h
  cases ho : Opcode.ofBits (opField ir) with
  | none => simp [ho] at h
  | some o =>
    have hrange := immInRange_sext12 (imm9Field ir)
    cases o <;> simp only [ho, needZero_eq_ok, needCopies_eq_ok, beq_iff_eq, Except.ok.injEq] at h
    case add | xor =>
      obtain ⟨hz, hc, rfl⟩ := h
      exact ⟨rfl, packReg_of_copies ho hz hc⟩
    case andx | orx =>
      obtain ⟨hz, rfl⟩ := h
      exact ⟨rfl, packReg_fields ho hz⟩
    case addi | xori =>
      obtain ⟨hc, rfl⟩ := h
      exact ⟨hrange, by rw [encode, immField_sext12, packImm_of_copies ho hc]⟩
    case andix | orix =>
      obtain rfl := h
      exact ⟨hrange, by rw [encode, immField_sext12, packImm_fields ho]⟩
    case rl | rr =>
      obtain ⟨hz, hc, rfl⟩ := h
      exact ⟨rfl, by rw [encode, packReg_zero, ← hz, packImm_of_copies ho hc]⟩
    case sllx | srax =>
      obtain ⟨hz, rfl⟩ := h
      exact ⟨rfl, by rw [encode, packReg_zero, ← hz, packImm_fields ho]⟩
    case exch | bez | bltz | rbez | rbltz =>
      obtain ⟨hz, rfl⟩ := h
      exact ⟨rfl, by rw [encode, ← hz, packImm_fields ho]⟩

theorem decode_encode {i : Instr} (h : i.wf = true) : decode (encode i) = .ok i := by
  cases i
  case addi | xori | andix | orix =>
    simp [encode, decode, ofBits_bits, needCopies, sext12_immField h]
  all_goals simp [encode, decode, ofBits_bits, needZero, needCopies, packReg_zero]

end Sys2Proof
end

section
/-! PROOFS. Words as numbers, and the opcode and the immediate that the word of an instruction carries. -/

namespace Sys2Proof.Claims

open Sys2Proof.Machine

/-! ## Packed words as numbers (R63 to R65) -/

theorem toNat_regBits (r : Reg) : (regBits r).toNat = r.val := by
  rw [regBits, BitVec.toNat_ofNat, Nat.mod_eq_of_lt r.isLt]

theorem toNat_packImm (o : Opcode) (a b : Reg) (m : BitVec 9) :
    (packImm o a b m).toNat = immWord o.bits.toNat a b m.toNat := by
  simp only [packImm, immWord, toNat_append_add, toNat_regBits]
  omega

theorem toNat_packReg (o : Opcode) (a b c : Reg) : (packReg o a b c).toNat = regWord o.bits.toNat a b c := by
  simp only [packReg, regWord, toNat_append_add, toNat_regBits, BitVec.ofNat_eq_ofNat, BitVec.toNat_ofNat]
  omega

theorem sextValue_eq_sext12 (m : BitVec 9) : sextValue m = sext12 m := by
  apply BitVec.eq_of_toNat_eq
  have hm := m.isLt
  rw [toNat_sext12, sextValue, BitVec.toNat_ofNat]
  split <;> omega

theorem toNat_packImm_sextValue (o : Opcode) (a b : Reg) (m : BitVec 9) :
    (packImm o a b (immField (sextValue m))).toNat = immWord o.bits.toNat a b m.toNat := by
  rw [sextValue_eq_sext12, immField_sext12, toNat_packImm]

/-! ## The opcode (R68) -/

theorem toNat_opField (ir : IWord) : (opField ir).toNat = ir.toNat / 2 ^ 15 := by
  have hir := ir.isLt
  rw [opField, BitVec.extractLsb'_toNat, Nat.shiftRight_eq_div_pow]
  omega

theorem opField_encode (i : Instr) : opField (encode i) = (Laws.EncodeOpcode.opcode i).bits := by
  cases i
  case addi | xori | andix | orix | exch | bez | bltz | rbez | rbltz => exact opField_packImm ..
  all_goals exact opField_packReg ..

/-- The model's table of opcodes is the map of R68. -/
theorem toNat_bits_opcode (i : Instr) : (Laws.EncodeOpcode.opcode i).bits.toNat = opcodeOf i := by
  cases i <;> rfl

theorem opcode_of_encode (i : Instr) : (encode i).toNat / 2 ^ 15 = opcodeOf i := by
  rw [← toNat_opField, opField_encode, toNat_bits_opcode]

theorem bits_not_unassigned (o : Opcode) : o.bits.toNat ∉ unassigned := by
  cases o <;> decide

theorem opcodeOf_not_unassigned (i : Instr) : opcodeOf i ∉ unassigned :=
  toNat_bits_opcode i ▸ bits_not_unassigned _

/-! ## The immediate (R67) -/

theorem getLsbD_sext12_low (v : BitVec 9) {k : Nat} (hk : k < 9) : (sext12 v).getLsbD k = v.getLsbD k := by
  have h12 : k < 12 := by omega
  rw [sext12, BitVec.getLsbD_signExtend]
  simp [hk, h12]

theorem getLsbD_sext12_high (v : BitVec 9) {k : Nat} (hk : 9 ≤ k) (h12 : k < 12) :
    (sext12 v).getLsbD k = v.getLsbD 8 := by
  rw [sext12, BitVec.getLsbD_signExtend, if_neg (Nat.not_lt.2 hk), BitVec.msb_eq_getLsbD_last]
  simp [h12]

theorem getLsbD_imm9Field (ir : IWord) {k : Nat} (hk : k < 9) : (imm9Field ir).getLsbD k = ir.getLsbD k := by
  simp [imm9Field, hk]

/-- The immediate of an instruction stands in the low nine bits of its word, and only it decides well-formedness. -/
theorem immediate_of_encode {i : Instr} {imm : Word} (h : immediateOf i = some imm) :
    imm9Field (encode i) = immField imm ∧ i.wf = immInRange imm := by
  cases i
  case addi | xori | andix | orix =>
    obtain rfl := Option.some.inj h
    exact ⟨imm9Field_packImm .., rfl⟩
  all_goals cases h

/-- The immediate the decoder gives is the low nine bits of the word, sign-extended. -/
theorem immediate_of_decode {ir : IWord} {i : Instr} {imm : Word} (hd : decode ir = .ok i)
    (hi : immediateOf i = some imm) : imm = sext12 (imm9Field ir) := by
  obtain ⟨hwf, rfl⟩ := wf_and_encode_of_decode hd
  obtain ⟨hfield, hrange⟩ := immediate_of_encode hi
  rw [hfield, sext12_immField (hrange ▸ hwf)]

end Sys2Proof.Claims
end

section
/-! PROOFS. The assembler: the instructions it places are found again, and the immediates it accepts. -/

namespace Sys2Proof.Machine

theorem lookupCell_placeInstrs (is : List Instr) (origin k : Nat) (h : k < is.length) :
    lookupCell (origin + k) (placeInstrs origin is) = some (encode is[k]) := by
  induction is generalizing origin k with
  | nil => cases h
  | cons i is ih =>
    cases k with
    | zero => simp [placeInstrs, lookupCell]
    | succ k =>
      have hrest := ih (origin + 1) k (Nat.lt_of_succ_lt_succ h)
      rw [Nat.add_assoc, Nat.add_comm 1] at hrest
      simpa [placeInstrs, lookupCell] using hrest

theorem toInt_sext12 (v : BitVec 9) : (sext12 v).toInt = v.toInt := BitVec.toInt_signExtend_of_le (by omega)

theorem asmImm_eq_none_iff (v : Int) : asmImm v = none ↔ v < -256 ∨ 511 < v := by
  unfold asmImm
  split <;> simp <;> omega

theorem asmImm_eq_some_iff {v : Int} {w : Word} :
    asmImm v = some w ↔ (-256 ≤ v ∧ v ≤ 511) ∧ sext12 (BitVec.ofInt 9 v) = w := by
  unfold asmImm
  split <;> simp_all

/-- The low nine bits of an encodable value, read as a signed number (R78). -/
theorem toInt_ofInt_nine {v : Int} (h : -256 ≤ v ∧ v ≤ 511) :
    (BitVec.ofInt 9 v).toInt = if v ≤ 255 then v else v - 512 := by
  rw [BitVec.toInt_ofInt, Int.bmod_def]
  split <;> split <;> omega

end Sys2Proof.Machine
end

section
/-! PROOFS. ADDI and XORI, and the two instructions of `neg`. -/

namespace Sys2Proof.Claims

open Sys2Proof.Machine

theorem exec_addi (rsd : Reg) (imm : Word) (s : State) :
    ∃ t, exec (.addi rsd imm) s = .next t ∧ WritesOnly rsd (stepSum s.dir (s.getReg rsd) imm) s t :=
  writeResult_of_pass rsd _ fun _ => rfl

theorem exec_xori (rsd : Reg) (imm : Word) (s : State) :
    ∃ t, exec (.xori rsd imm) s = .next t ∧ WritesOnly rsd (s.getReg rsd ^^^ imm) s t :=
  writeResult_of_pass rsd _ fun _ => rfl

theorem OtherRegs.trans {r : Reg} {s t u : State} (hst : OtherRegs r s t) (htu : OtherRegs r t u) : OtherRegs r s u :=
  fun q hq => (htu q hq).trans (hst q hq)

theorem execAll_pair {i j : Instr} {s t u : State} (hi : exec i s = .next t) (hj : exec j t = .next u) :
    execAll [i, j] s = .next u := by
  rw [execAll_cons_of_next hi, execAll_cons_of_next hj, execAll]

/-- XORI by the all-ones immediate complements. -/
theorem xor_ones (v : Word) : v ^^^ 0xFFF = ~~~v := BitVec.xor_allOnes

theorem neg_forward (r : Reg) {s : State} (hd : s.dir = .forward) :
    ∃ t, execAll (negInstrs r) s = .next t ∧ t.getReg r = -(s.getReg r) ∧ OtherRegs r s t := by
  obtain ⟨t, hxori, ht⟩ := exec_xori r 0xFFF s
  obtain ⟨u, haddi, hu⟩ := exec_addi r 1 t
  refine ⟨u, execAll_pair hxori haddi, ?_, ht.others.trans hu.others⟩
  rw [hu.value, ht.dir, hd, ht.value, xor_ones, stepSum, BitVec.neg_eq_not_add]
  rfl

theorem neg_reverse (r : Reg) {s : State} (hd : s.dir = .reverse) :
    ∃ t, execAll (negInstrs r).reverse s = .next t ∧ -(t.getReg r) = s.getReg r ∧ OtherRegs r s t := by
  obtain ⟨t, haddi, ht⟩ := exec_addi r 1 s
  obtain ⟨u, hxori, hu⟩ := exec_xori r 0xFFF t
  refine ⟨u, execAll_pair haddi hxori, ?_, ht.others.trans hu.others⟩
  rw [hu.value, ht.value, hd, xor_ones, stepSum, BitVec.neg_eq_not_add, BitVec.not_not]
  exact BitVec.sub_add_cancel _ _

end Sys2Proof.Claims
end

section
/-! PROOFS. The statements of 30_encoding.md. -/

namespace Sys2Proof.Claims

open Sys2Proof.Machine

/-- Settles O4: each field read from the packed word is the field that was packed, and the immediate is in range. -/
theorem decodeOfEncode : Obligations.DecodeOfEncode := fun _ => decode_encode

/-- Settles O5: an accepted word is packed from its own fields, and the decoder's tests are what the encoder puts there. -/
theorem encodeOfDecode : Obligations.EncodeOfDecode := fun _ _ => wf_and_encode_of_decode

/-- Settles O1: the number of a packed word, for each format. -/
theorem wordLayout : Obligations.WordLayout := by
  refine ⟨?add, ?xor, ?andx, ?orx, ?rl, ?rr, ?sllx, ?srax, ?addi, ?xori, ?andix, ?orix, ?exch, ?bez, ?bltz, ?rbez, ?rbltz⟩
  case addi | xori => exact fun d m => toNat_packImm_sextValue _ d d m
  case andix | orix => exact fun d s m => toNat_packImm_sextValue _ d s m
  case exch | bez | bltz | rbez | rbltz => exact fun a b => toNat_packImm _ a b 0
  case add | xor => exact fun d t => toNat_packReg _ d d t
  case andx | orx => exact fun d s t => toNat_packReg _ d s t
  case rl | rr => exact fun d => toNat_packReg _ d d 0
  case sllx | srax => exact fun d s => toNat_packReg _ d s 0

/-- Settles O2: a word that decodes is its instruction's word, so one fact about the encoder says all three. -/
theorem opcodeMap : Obligations.OpcodeMap := by
  have hdecoded : ∀ ir i, decode ir = .ok i → ir.toNat / 2 ^ 15 = opcodeOf i := fun ir i h =>
    (wf_and_encode_of_decode h).2 ▸ opcode_of_encode i
  exact ⟨hdecoded, opcode_of_encode, fun ir hun i h => opcodeOf_not_unassigned i (hdecoded ir i h ▸ hun)⟩

/-- Settles O3: the bits of a sign extension; for the converse, each immediate in range is that of an ADDI. -/
theorem immediateIsSignExtended : Obligations.ImmediateIsSignExtended := by
  refine ⟨fun ir i imm hd hi => ?_, fun imm hrange => ?_⟩
  · obtain rfl := immediate_of_decode hd hi
    refine ⟨fun k hk => ?_, fun k hk h12 => ?_, of_decide_eq_true (immInRange_sext12 _)⟩
    · rw [getLsbD_sext12_low _ hk, getLsbD_imm9Field ir hk]
    · rw [getLsbD_sext12_high _ hk h12, getLsbD_imm9Field ir (by decide)]
  · exact ⟨encode (.addi 0 imm), .addi 0 imm, decode_encode (decide_eq_true hrange), rfl⟩

/-- Settles O54: the list fits, so no address wraps, and the lookup passes over the cells before. -/
theorem assembledInstructionsAreFetched : Obligations.AssembledInstructionsAreFetched := by
  intro origin is k hk hfits
  rw [Program.fetch, BitVec.toNat_ofNat, Nat.mod_eq_of_lt (by omega), lookupCell_placeInstrs is origin k hk]

/-- Settles O7: each of the seventeen is one evaluation of the decoder. -/
theorem writtenOutWordsDecode : Obligations.WrittenOutWordsDecode := by
  unfold Obligations.WrittenOutWordsDecode
  decide

/-- Settles O52: complement and add one; in reverse, subtract one and complement. -/
theorem negReplacesByTheNegation : Obligations.NegReplacesByTheNegation :=
  fun r _ => ⟨neg_forward r, neg_reverse r⟩

/-- Settles O53: the nine bits placed are sign-extended, which keeps their signed reading. -/
theorem assemblerImmediateRange : Obligations.AssemblerImmediateRange := by
  refine ⟨asmImm_eq_none_iff, fun v w h => ?_⟩
  obtain ⟨hrange, rfl⟩ := asmImm_eq_some_iff.1 h
  rw [toInt_sext12, toInt_ofInt_nine hrange]

end Sys2Proof.Claims
end

section
/-! PROOFS. Effects that undo themselves: what a second write, exchange, rotation or sum in the other direction makes of the
first (40_execution.md R100). `Rev` of an advanced state is the state before its advance with the direction toggled. -/

namespace Sys2Proof.Machine

@[simp] theorem toggleDir_toggleDir (s : State) : s.toggleDir.toggleDir = s := by simp [State.toggleDir]

theorem nextAddr_nextAddr_toggle (d : Direction) (a : Addr) : d.nextAddr (d.toggle.nextAddr a) = a := by
  simpa using nextAddr_toggle d.toggle a

theorem rev_rev (s : State) : s.rev.rev = s := by simp [State.rev, nextAddr_nextAddr_toggle]

theorem setReg_restore (s : State) (r : Reg) (v : Word) : (s.setReg r v).setReg r (s.getReg r) = s := by
  rw [setReg_setReg, setReg_getReg]

theorem exchangePc_exchangePc (s : State) (ra : Reg) : (s.exchangePc ra).exchangePc ra = s :=
  calc (s.exchangePc ra).exchangePc ra
      = (((s.setReg ra s.pc).setReg ra (s.getReg ra)).setPc ((s.exchangePc ra).getReg ra)) := rfl
    _ = s := by rw [setReg_restore, exchangePc_getReg_self]; rfl

/-- Writing back a word of data memory in canonical form restores the list itself, not only what it reads. -/
theorem memory_write_restore {m : Memory} (h : m.wf) (a : Addr) (v : Word) : (m.write a v).write a (m.read a) = m := by
  refine memory_ext (memory_wf_write (memory_wf_write h a v) a _) h fun b => ?_
  by_cases hb : b = a
  · rw [hb, memory_read_write_self]
  · rw [memory_read_write_other _ hb, memory_read_write_other _ hb]

theorem exchangeMem_exchangeMem {s : State} (h : s.dmem.wf) (e : Reg) (a : Addr) :
    (s.exchangeMem e a).exchangeMem e a = s := by
  have hword : (s.exchangeMem e a).readMem a = s.getReg e := readMem_writeMem_self s a _
  have hmem : (s.writeMem a (s.getReg e)).writeMem a (s.readMem a) = s :=
    congrArg (fun m => { s with dmem := m }) (memory_write_restore h a _)
  calc (s.exchangeMem e a).exchangeMem e a
      = (((s.writeMem a (s.getReg e)).writeMem a ((s.exchangeMem e a).getReg e)).setReg e (s.readMem a)).setReg e
          ((s.exchangeMem e a).readMem a) := rfl
    _ = s := by rw [exchangeMem_getReg_self, hword, hmem, setReg_restore]

theorem stepSum_toggle (d : Direction) (a b : Word) : stepSum d.toggle (stepSum d a b) b = a := by
  cases d
  · exact BitVec.add_sub_cancel a b
  · exact BitVec.sub_add_cancel a b

theorem rotateRightOne_rotateLeftOne (v : Word) : rotateRightOne (rotateLeftOne v) = v := by
  unfold rotateRightOne rotateLeftOne
  rw [BitVec.extractLsb'_append_eq_right, BitVec.extractLsb'_append_eq_left]
  exact BitVec.extractLsb'_append_extractLsb'

theorem rotateLeftOne_rotateRightOne (v : Word) : rotateLeftOne (rotateRightOne v) = v := by
  unfold rotateRightOne rotateLeftOne
  rw [BitVec.extractLsb'_append_eq_right, BitVec.extractLsb'_append_eq_left]
  exact BitVec.extractLsb'_append_extractLsb'

theorem stepRotateLeft_toggle (d : Direction) (v : Word) : stepRotateLeft d.toggle (stepRotateLeft d v) = v := by
  cases d
  · exact rotateRightOne_rotateLeftOne v
  · exact rotateLeftOne_rotateRightOne v

theorem stepRotateRight_toggle (d : Direction) (v : Word) : stepRotateRight d.toggle (stepRotateRight d v) = v := by
  cases d
  · exact rotateLeftOne_rotateRightOne v
  · exact rotateRightOne_rotateLeftOne v

end Sys2Proof.Machine
end

section
/-! PROOFS. One instruction done and undone: a register instruction, EXCH, and a branch followed back by a twin of it. -/

namespace Sys2Proof.Claims

open Sys2Proof.Machine

/-- From `s` the instruction makes `u` and advances; from `u`, facing the other way, it makes `s` again; and `u` stands at the
same word as `s`. -/
structure UndoesItself (i : Instr) (s u : State) : Prop where
  done : exec i s = .next u.advance
  undone : exec i u.toggleDir = .next s.toggleDir.advance
  word : u.fetch u.pc = s.fetch s.pc

/-- `Step(Rev(Step(S))) = Rev(S)` for an instruction that undoes itself (R100). -/
theorem UndoesItself.reverses {i : Instr} {s u : State} (h : UndoesItself i s u) {ir : IWord}
    (hf : s.fetch s.pc = some ir) (hd : decode ir = .ok i) : ∃ t, cycle s = .next t ∧ cycle t.rev = .next s.rev := by
  refine ⟨u.advance, (cycle_of_decode hf hd).trans h.done, ?_⟩
  rw [rev_advance]
  exact (cycle_of_decode (s := u.toggleDir) (h.word.trans hf) hd).trans h.undone

/-! ## Register instructions and EXCH -/

theorem undoesItself_of_writeResult {i : Instr} {rd : Reg} {v : State → Word} (hi : i.irreversibleForm = false)
    (hexec : ∀ s, exec i s = writeResult i rd (v s) s)
    (hv : ∀ s : State, v (s.setReg rd (v s)).toggleDir = s.getReg rd) (s : State) : UndoesItself i s (s.setReg rd (v s)) where
  done := (hexec s).trans (unlessIrreversible_pass _ fun _ => hi)
  undone := by
    rw [hexec, hv]
    exact (unlessIrreversible_pass _ fun _ => hi).trans
      (congrArg (fun u => complete u.toggleDir) (setReg_restore s rd _))
  word := rfl

/-- An exclusive-or with a value that neither the destination nor the direction decides undoes itself. -/
theorem undoesItself_of_accumulate {i : Instr} {rd : Reg} {w : State → Word} (hi : i.irreversibleForm = false)
    (hexec : ∀ s, exec i s = accumulate i rd (w s) s)
    (hw : ∀ (s : State) v, w (s.setReg rd v).toggleDir = w s) (s : State) :
    UndoesItself i s (s.setReg rd (w s ^^^ s.getReg rd)) :=
  undoesItself_of_writeResult (v := fun s => w s ^^^ s.getReg rd) hi hexec (fun s => by simp [hw]) s

theorem undoesItself_exch {e a : Reg} {s : State} (hwf : s.dmem.wf) (hea : e ≠ a) :
    UndoesItself (.exch e a) s (s.exchangeMem e (s.getReg a)) where
  done := unlessIrreversible_pass (i := .exch e a) _ fun _ => beq_false_of_ne hea
  undone := by
    have haddr : (s.exchangeMem e (s.getReg a)).getReg a = s.getReg a := exchangeMem_getReg_other s _ hea.symm
    refine (unlessIrreversible_pass (i := .exch e a) _ fun _ => beq_false_of_ne hea).trans ?_
    rw [toggleDir_getReg, haddr]
    exact congrArg (fun u => complete u.toggleDir) (exchangeMem_exchangeMem hwf e _)
  word := rfl

/-! ## Branches -/

theorem branchesOn_bez (ra rb : Reg) : BranchesOn (.bez ra rb) ra rb fun v => decide (v = 0) :=
  ⟨fun _ => rfl, fun _ => rfl, fun _ => rfl, fun _ => rfl, rfl⟩

theorem branchesOn_rbez (ra rb : Reg) : BranchesOn (.rbez ra rb) ra rb fun v => decide (v = 0) :=
  ⟨fun _ => rfl, fun _ => rfl, fun _ => rfl, fun _ => rfl, rfl⟩

theorem branchesOn_bltz (ra rb : Reg) : BranchesOn (.bltz ra rb) ra rb fun v => decide (v.toInt < 0) :=
  ⟨fun s => congrArg (branch _ · _ _ s) (isNegative_eq _), fun _ => rfl, fun _ => rfl, fun _ => rfl, rfl⟩

theorem branchesOn_rbltz (ra rb : Reg) : BranchesOn (.rbltz ra rb) ra rb fun v => decide (v.toInt < 0) :=
  ⟨fun s => congrArg (branch _ · _ _ s) (isNegative_eq _), fun _ => rfl, fun _ => rfl, fun _ => rfl, rfl⟩

/-- What a taken branch makes of a state before the advance (`exec_of_taken`). -/
def jumped (reverses : Bool) (ra : Reg) (s : State) : State :=
  if reverses then (s.exchangePc ra).toggleDir else s.exchangePc ra

section
variable (reverses : Bool) (ra : Reg) (s : State)

@[simp] theorem jumped_pc : (jumped reverses ra s).pc = s.getReg ra := by cases reverses <;> rfl

@[simp] theorem jumped_fetch (a : Addr) : (jumped reverses ra s).fetch a = s.fetch a := by cases reverses <;> rfl

@[simp] theorem jumped_getReg_self : (jumped reverses ra s).getReg ra = s.pc := by
  cases reverses <;> exact exchangePc_getReg_self s ra

theorem jumped_getReg_other {q : Reg} (h : q ≠ ra) : (jumped reverses ra s).getReg q = s.getReg q := by
  cases reverses <;> exact exchangePc_getReg_other s h

theorem jumped_true_toggleDir : (jumped true ra s).toggleDir = s.exchangePc ra := toggleDir_toggleDir _

/-- A jump back by the same kind of branch undoes the jump. -/
theorem jumped_back_same : jumped reverses ra (jumped reverses ra s).toggleDir = s.toggleDir := by
  have hback := congrArg State.toggleDir (exchangePc_exchangePc s ra)
  cases reverses
  · exact hback
  · rw [jumped_true_toggleDir]
    exact hback

/-- A jump back by a branch that does not reverse leaves the direction that the reversing branch made. -/
theorem jumped_back_nonreversing : jumped false ra (jumped true ra s).toggleDir = s := by
  rw [jumped_true_toggleDir]
  exact exchangePc_exchangePc s ra

end

theorem paired_of_fetch {s : State} {own twin : IWord} {T : Addr} (hf : s.fetch T = some twin)
    (hw : twin ||| reversingBit = own ||| reversingBit) : s.paired own T = true := by
  simp [State.paired, hf, hw]

section
variable {i j : Instr} {ra rb : Reg} {holds : Word → Bool} {s : State}

theorem exec_of_taken (h : BranchesOn i ra rb holds) (hi : i.irreversibleForm = false) (ht : taken i s = true)
    (hp : s.paired (encode i) (s.getReg ra) = true) : exec i s = .next (jumped (reversing i) ra s).advance := by
  rw [h.exec_eq, ht]
  exact (unlessIrreversible_pass _ fun _ => hi).trans ((if_pos rfl).trans (if_pos hp))

theorem exec_of_not_taken (h : BranchesOn i ra rb holds) (hi : i.irreversibleForm = false) (ht : taken i s = false) :
    exec i s = .next s.advance := by
  rw [h.exec_eq, ht]
  exact unlessIrreversible_pass _ fun _ => hi

/-- After a jump, `Rev` and a twin of the branch at the target, the machine jumps back through the same register: the twin
finds the first branch at its own target. -/
theorem exec_twin_of_jumped (hi : BranchesOn i ra rb holds) (hj : BranchesOn j ra rb holds)
    (hirr : j.irreversibleForm = false) (hne : rb ≠ ra) (ht : taken i s = true)
    (hword : encode i ||| reversingBit = encode j ||| reversingBit) (hf : s.fetch s.pc = some (encode i)) :
    exec j (jumped (reversing i) ra s).toggleDir =
      .next (jumped (reversing j) ra (jumped (reversing i) ra s).toggleDir).advance := by
  have htaken : taken j (jumped (reversing i) ra s).toggleDir = true := by
    rw [hj.taken_eq, toggleDir_getReg, jumped_getReg_other _ _ _ hne, ← hi.taken_eq, ht]
  exact exec_of_taken hj hirr htaken (paired_of_fetch (by simpa using hf) hword)

theorem undoesItself_branch (h : BranchesOn i ra rb holds) (hirr : i.irreversibleForm = false) (hne : rb ≠ ra)
    (hf : s.fetch s.pc = some (encode i)) (htwin : taken i s = true → s.fetch (s.getReg ra) = some (encode i)) :
    ∃ u, UndoesItself i s u := by
  cases ht : taken i s with
  | false =>
    have ht' : taken i s.toggleDir = false := by rw [h.taken_eq, toggleDir_getReg, ← h.taken_eq, ht]
    exact ⟨s, exec_of_not_taken h hirr ht, exec_of_not_taken h hirr ht', rfl⟩
  | true =>
    refine ⟨jumped (reversing i) ra s, exec_of_taken h hirr ht (paired_of_fetch (htwin ht) rfl), ?_, ?_⟩
    · rw [exec_twin_of_jumped h h hirr hne ht rfl hf, jumped_back_same]
    · rw [jumped_pc, jumped_fetch, htwin ht, hf]

end

/-! ## Every instruction -/

/-- Every instruction that is no irreversible form and, if it is a taken branch, has its identical twin at its target undoes
itself (R100). -/
theorem exists_undoesItself {i : Instr} {s : State} (hwf : s.dmem.wf) (hirr : i.irreversibleForm = false)
    (hf : s.fetch s.pc = some (encode i))
    (htwin : ∀ ra, branchReg i = some ra → taken i s = true → s.fetch (s.getReg ra) = some (encode i)) :
    ∃ u, UndoesItself i s u := by
  cases i
  case add d t =>
    have hne : t ≠ d := (ne_of_beq_false hirr).symm
    exact ⟨_, undoesItself_of_writeResult hirr (fun _ => rfl)
      (fun s => by simp [getReg_setReg_other _ _ hne, stepSum_toggle]) s⟩
  case xor d r =>
    have hne : r ≠ d := (ne_of_beq_false hirr).symm
    exact ⟨_, undoesItself_of_writeResult hirr (fun _ => rfl) (fun s => by simp [getReg_setReg_other _ _ hne]) s⟩
  case addi => exact ⟨_, undoesItself_of_writeResult hirr (fun _ => rfl) (fun s => by simp [stepSum_toggle]) s⟩
  case xori => exact ⟨_, undoesItself_of_writeResult hirr (fun _ => rfl) (fun s => by simp) s⟩
  case rl => exact ⟨_, undoesItself_of_writeResult hirr (fun _ => rfl) (fun s => by simp [stepRotateLeft_toggle]) s⟩
  case rr => exact ⟨_, undoesItself_of_writeResult hirr (fun _ => rfl) (fun s => by simp [stepRotateRight_toggle]) s⟩
  case andx d r t | orx d r t =>
    obtain ⟨hr, ht⟩ := Bool.or_eq_false_iff.1 hirr
    have hr' : r ≠ d := (ne_of_beq_false hr).symm
    have ht' : t ≠ d := (ne_of_beq_false ht).symm
    exact ⟨_, undoesItself_of_accumulate hirr (fun _ => rfl)
      (fun s v => by simp [getReg_setReg_other _ _ hr', getReg_setReg_other _ _ ht']) s⟩
  case andix d r _ | orix d r _ | sllx d r | srax d r =>
    have hne : r ≠ d := (ne_of_beq_false hirr).symm
    exact ⟨_, undoesItself_of_accumulate hirr (fun _ => rfl) (fun s v => by simp [getReg_setReg_other _ _ hne]) s⟩
  case exch e a => exact ⟨_, undoesItself_exch hwf (ne_of_beq_false hirr)⟩
  case bez ra rb => exact undoesItself_branch (branchesOn_bez ra rb) hirr (ne_of_beq_false hirr).symm hf (htwin ra rfl)
  case rbez ra rb => exact undoesItself_branch (branchesOn_rbez ra rb) hirr (ne_of_beq_false hirr).symm hf (htwin ra rfl)
  case bltz ra rb => exact undoesItself_branch (branchesOn_bltz ra rb) hirr (ne_of_beq_false hirr).symm hf (htwin ra rfl)
  case rbltz ra rb => exact undoesItself_branch (branchesOn_rbltz ra rb) hirr (ne_of_beq_false hirr).symm hf (htwin ra rfl)

theorem cycle_reverses {s : State} (hs : Canonical s) (h : Undoable s) :
    ∃ t, cycle s = .next t ∧ cycle t.rev = .next s.rev := by
  obtain ⟨ir, i, hf, hd, hirr, htwin⟩ := h
  obtain rfl := (wf_and_encode_of_decode hd).2
  obtain ⟨u, hu⟩ := exists_undoesItself hs.data hirr hf htwin
  exact hu.reverses hf hd

/-! ## Runs -/

theorem cycles_succ_of_next {n : Nat} {s t : State} (h : cycle s = .next t) : cycles (n + 1) s = cycles n t := by
  simp [cycles, h]

/-- A last cycle after `n` cycles. -/
theorem cycles_snoc {n : Nat} {s t u : State} (hn : cycles n s = .next t) (h : cycle t = .next u) :
    cycles (n + 1) s = .next u := by
  induction n generalizing s with
  | zero =>
    obtain rfl := Host.Outcome.next.inj hn
    rw [cycles_succ_of_next h, cycles]
  | succ n ih =>
    cases hc : cycle s with
    | next s' =>
      rw [cycles_succ_of_next hc] at hn ⊢
      exact ih hn
    | fault | refused => simp [cycles, hc] at hn

theorem canonical_of_cycle {s t : State} (hs : Canonical s) (h : cycle s = .next t) : Canonical t := by
  obtain ⟨_, _, -, -, hexec⟩ := cycle_next h
  exact (completes_of_exec hexec).canonical hs

/-- The law of one step carried along a run: the last step of the way back undoes the first step of the way out. -/
theorem cycles_reverse {n : Nat} {s : State} (hs : Canonical s) (h : UndoableFor n s) :
    ∃ t, cycles n s = .next t ∧ cycles n t.rev = .next s.rev := by
  induction n generalizing s with
  | zero => exact ⟨s, rfl, rfl⟩
  | succ n ih =>
    obtain ⟨hfirst, hrest⟩ := h
    obtain ⟨s', hout, hback⟩ := cycle_reverses hs hfirst
    obtain ⟨t, houts, hbacks⟩ := ih (canonical_of_cycle hs hout) (hrest s' hout)
    exact ⟨t, (cycles_succ_of_next hout).trans houts, cycles_snoc hbacks hback⟩

/-! ## Where the law fails -/

/-- Two words packed alike but for the opcode agree but for `ir[16]` if their opcodes agree but for bit 1 (R69). -/
theorem packImm_or_reversingBit {o p : Opcode} (h : o.bits ||| 0b00010#5 = p.bits ||| 0b00010#5) (a b : Reg)
    (m : BitVec 9) : packImm o a b m ||| reversingBit = packImm p a b m ||| reversingBit := by
  have hbit : reversingBit = 0b00010#5 ++ 0#15 := by decide
  rw [packImm, packImm, hbit]
  exact BitVec.or_append.trans ((congrArg (· ++ _) h).trans BitVec.or_append.symm)

/-- `i` is a reversing branch and `j` its non-reversing twin, through two different registers. -/
structure NonreversingTwin (i j : Instr) (ra rb : Reg) (holds : Word → Bool) : Prop where
  branch : BranchesOn i ra rb holds
  twin : BranchesOn j ra rb holds
  reverses : reversing i = true
  keeps : reversing j = false
  registers : rb ≠ ra
  reversible : i.irreversibleForm = false ∧ j.irreversibleForm = false
  word : encode i ||| reversingBit = encode j ||| reversingBit
  legal : i.wf = true ∧ j.wf = true

theorem nonreversingTwin_bez {ra rb : Reg} (h : ra ≠ rb) :
    NonreversingTwin (.rbez ra rb) (.bez ra rb) ra rb fun v => decide (v = 0) where
  branch := branchesOn_rbez ra rb
  twin := branchesOn_bez ra rb
  reverses := rfl
  keeps := rfl
  registers := h.symm
  reversible := ⟨beq_false_of_ne h, beq_false_of_ne h⟩
  word := packImm_or_reversingBit (by decide) ra rb 0
  legal := ⟨rfl, rfl⟩

theorem nonreversingTwin_bltz {ra rb : Reg} (h : ra ≠ rb) :
    NonreversingTwin (.rbltz ra rb) (.bltz ra rb) ra rb fun v => decide (v.toInt < 0) where
  branch := branchesOn_rbltz ra rb
  twin := branchesOn_bltz ra rb
  reverses := rfl
  keeps := rfl
  registers := h.symm
  reversible := ⟨beq_false_of_ne h, beq_false_of_ne h⟩
  word := packImm_or_reversingBit (by decide) ra rb 0
  legal := ⟨rfl, rfl⟩

/-- A taken reversing branch whose target holds its non-reversing twin is followed back to where it stood, but with the
direction not toggled (U14). -/
theorem NonreversingTwin.not_reverses {i j : Instr} {ra rb : Reg} {holds : Word → Bool} {s : State}
    (h : NonreversingTwin i j ra rb holds) (hf : s.fetch s.pc = some (encode i))
    (hfj : s.fetch (s.getReg ra) = some (encode j)) (ht : taken i s = true) :
    ∃ t u, cycle s = .next t ∧ cycle t.rev = .next u ∧ u ≠ s.rev := by
  have hout := exec_of_taken h.branch h.reversible.1 ht (paired_of_fetch hfj h.word.symm)
  have hback := exec_twin_of_jumped h.branch h.twin h.reversible.2 h.registers ht h.word hf
  rw [h.reverses] at hout hback
  rw [h.keeps, jumped_back_nonreversing] at hback
  refine ⟨(jumped true ra s).advance, s.advance, (cycle_of_decode hf (decode_encode h.legal.1)).trans hout, ?_,
    fun he => toggle_ne s.dir (congrArg State.dir he).symm⟩
  rw [rev_advance]
  exact (cycle_of_decode (s := (jumped true ra s).toggleDir) (by simpa using hfj) (decode_encode h.legal.2)).trans hback

end Sys2Proof.Claims
end

section
/-! PROOFS. Faults on irreversible forms, the end of a run, and the placing of a word, as the statements of 40_execution.md
speak of them. -/

namespace Sys2Proof.Claims

open Sys2Proof.Machine

/-- The model's test is R95's list. -/
theorem irreversibleForm_eq_true_iff (i : Instr) : i.irreversibleForm = true ↔ IrreversibleForm i := by
  cases i <;> simp [Instr.irreversibleForm, IrreversibleForm]

theorem exec_of_irreversibleForm {i : Instr} {s : State} (hd : s.dir = .reverse) (hi : i.irreversibleForm = true) :
    exec i s = .fault (.irreversibleForm s.pc (encode i)) := by
  cases shape_of_instr i with
  | register h => exact (h.exec_eq s).trans (unlessIrreversible_stop _ hd hi)
  | exchange e a => exact unlessIrreversible_stop _ hd hi
  | branch h => exact (h.exec_eq s).trans (unlessIrreversible_stop _ hd hi)

theorem of_exec_eq_irreversibleForm {i : Instr} {s : State} {a : Addr} {ir : IWord}
    (h : exec i s = .fault (.irreversibleForm a ir)) :
    s.dir = .reverse ∧ i.irreversibleForm = true ∧ a = s.pc ∧ ir = encode i := by
  obtain ⟨_, e⟩ | ⟨hd, hi, e⟩ | ⟨_, -, -, e⟩ := exec_cases i s
  · cases e.symm.trans h
  · cases e.symm.trans h
    exact ⟨hd, hi, rfl, rfl⟩
  · cases e.symm.trans h

/-- The test for the end of the run is the two conditions of R97. -/
theorem endOfRun_eq_true_iff (s : State) : s.endOfRun = true ↔ AtEnd s := by
  cases hd : s.dir <;> simp [State.endOfRun, AtEnd, hd]

theorem step_eq_exec {s : State} {ir : IWord} {i : Instr} (hs : s.status = .running) (he : s.endOfRun = false)
    (hf : s.fetch s.pc = some ir) (hd : decode ir = .ok i) : step s = exec i s :=
  (step_eq_cycle hs he).trans (cycle_of_decode hf hd)

/-- The placing of a word touches the program, the status and at most one run boundary. -/
theorem placeWord_frame (s : State) (ir : IWord) :
    (s.placeWord ir).gpr = s.gpr ∧ (s.placeWord ir).pc = s.pc ∧ (s.placeWord ir).dir = s.dir ∧
      (s.placeWord ir).dmem = s.dmem := by
  unfold State.placeWord
  dsimp only
  split
  · split <;> exact ⟨rfl, rfl, rfl, rfl⟩
  · exact ⟨rfl, rfl, rfl, rfl⟩

/-- A table word that decodes is its low twenty bits, decoded. -/
theorem decode_of_decodeTableWord {nbits w : Nat} {i : Instr} (h : decodeTableWord nbits w = some i) :
    decode (BitVec.ofNat 20 (w % 2 ^ nbits)) = .ok i := by
  unfold decodeTableWord tableWord at h
  split at h
  · cases h
  · next ir hir =>
    obtain ⟨-, hsome⟩ := Option.ite_none_right_eq_some.1 hir
    obtain rfl := Option.some.inj hsome
    cases hd : decode (BitVec.ofNat 20 (w % 2 ^ nbits)) with
    | error => simp [hd, Except.toOption] at h
    | ok => simpa [hd, Except.toOption] using h

end Sys2Proof.Claims
end

section
/-! PROOFS. The statements of 40_execution.md. -/

namespace Sys2Proof.Claims

open Sys2Proof.Machine

/-- Settles O43: every effect undoes itself in the other direction, and the reversed next state stands at the same word. -/
theorem timeReversalOfAStep : Obligations.TimeReversalOfAStep := fun _ => cycle_reverses

/-- Settles O44: the way back ends in the reversed starting state, so a last `Rev` gives the starting state. -/
theorem timeReversalOfARun : Obligations.TimeReversalOfARun := by
  intro n s hs h
  obtain ⟨t, hout, hback⟩ := cycles_reverse hs h
  exact ⟨t, s.rev, hout, hback, rev_rev s⟩

/-- Settles O32: the ways an instruction completes, each of which ends with the advance in the direction it made. -/
theorem pcAdvancesBesideTargetOrSelf : Obligations.PcAdvancesBesideTargetOrSelf := by
  intro i s t h
  cases completes_of_exec h with
  | register _ _ ht | passed _ _ ht =>
    exact ⟨fun _ _ htaken => by simp [ht] at htaken, fun _ => beside_nextAddr _ _⟩
  | exchange hi =>
    subst hi
    exact ⟨fun _ hb => (nomatch hb), fun _ => beside_nextAddr _ _⟩
  | jumped hb _ ht =>
    refine ⟨fun ra hra _ => ?_, fun hnot => by simp [ht] at hnot⟩
    obtain rfl := Option.some.inj (hb.symm.trans hra)
    cases reversing i <;> exact beside_nextAddr _ _

/-- Settles O46: the non-reversing twin brings the `pc` and the register back, and the direction stays toggled once too
often. -/
theorem reversalFailsAtANonReversingTwin : Obligations.ReversalFailsAtANonReversingTwin := by
  rintro ra rb s hne (⟨hf, hfj, hz⟩ | ⟨hf, hfj, hneg⟩)
  · exact (nonreversingTwin_bez hne).not_reverses hf hfj (decide_eq_true hz)
  · exact (nonreversingTwin_bltz hne).not_reverses hf hfj (decide_eq_true hneg)

/-- Settles O55: the machine with the word placed is running, not at an end of its run, and fetches that word. -/
theorem placedWordRunsNext : Obligations.PlacedWordRunsNext := by
  intro s nbits w
  obtain ⟨hgpr, hpc, hdir, hdmem⟩ := placeWord_frame s (BitVec.ofNat 20 (w % 2 ^ nbits))
  obtain ⟨hrun, hend, hfetch⟩ := placeWord_ready s (BitVec.ofNat 20 (w % 2 ^ nbits))
  exact ⟨fun i hi => step_eq_exec hrun hend hfetch (decode_of_decodeTableWord hi),
    fun r => congrArg (·[r]) hgpr, hpc, hdir, fun a => congrArg (·.read a) hdmem⟩

/-- Settles O29: the check comes first in every instruction, and no other part of one raises this fault. -/
theorem irreversibleFormExactly : Obligations.IrreversibleFormExactly := by
  intro i s
  rw [← irreversibleForm_eq_true_iff]
  refine ⟨⟨fun ⟨a, ir, h⟩ => ?_, fun ⟨hd, hi⟩ => ⟨_, _, exec_of_irreversibleForm hd hi⟩⟩, fun a ir h => ?_⟩
  · obtain ⟨hd, hi, -, -⟩ := of_exec_eq_irreversibleForm h
    exact ⟨hd, hi⟩
  · obtain ⟨-, -, ha, hir⟩ := of_exec_eq_irreversibleForm h
    exact ⟨ha, hir⟩

/-- Settles O35: the step of a running machine that is not at an end of its run is the cycle. -/
theorem stepRunsTheDecodedInstruction : Obligations.StepRunsTheDecodedInstruction := fun s _ _ hs hend hf hd =>
  step_eq_exec hs (Bool.eq_false_iff.2 fun he => hend ((endOfRun_eq_true_iff s).1 he)) hf hd

/-- Settles O45: the direction is toggled twice, and the `pc` goes one address out and back. -/
theorem revTwiceIsTheState : Obligations.RevTwiceIsTheState := rev_rev

/-- Settles O51: by the run status. -/
theorem handoverOnlyWhenFinished : Obligations.HandoverOnlyWhenFinished := by
  intro s
  cases hs : s.status <;> simp [State.handover, hs]

end Sys2Proof.Claims
end

section
/-! PROOFS. The effect of an instruction that writes one register, from the value it writes: it completes unless it is an
irreversible form in reverse (40_execution.md R95), and what the written register then holds, bit by bit and as a number. -/

namespace Sys2Proof.Claims

open Sys2Proof.Machine

@[simp] theorem stepSum_forward (a b : Word) : stepSum .forward a b = a + b := rfl
@[simp] theorem stepSum_reverse (a b : Word) : stepSum .reverse a b = a - b := rfl

/-! ## When it completes -/

theorem completes_of_writeResult {i : Instr} {rd : Reg} {v : Word} {s : State} (he : exec i s = writeResult i rd v s)
    (h : s.dir = .reverse → ¬ IrreversibleForm i) : ∃ t, exec i s = .next t ∧ WritesOnly rd v s t := by
  rw [he]
  exact writeResult_of_pass rd v fun hd => Bool.eq_false_iff.2 (mt (irreversibleForm_eq_true_iff i).1 (h hd))

theorem registerEffect_of_writeResult {i : Instr} {rd : Reg} {v forward reverse : State → Word}
    (he : ∀ s, exec i s = writeResult i rd (v s) s) (hf : ∀ s, s.dir = .forward → v s = forward s)
    (hr : ∀ s, s.dir = .reverse → v s = reverse s) :
    RegisterEffect i rd forward reverse (IrreversibleForm i) := by
  refine fun s => ⟨fun hd => ?_, fun hd hc => ?_, fun hd hc => ?_⟩
  · rw [← hf s hd]
    exact completes_of_writeResult (he s) fun h => by simp [hd] at h
  · rw [← hr s hd]
    exact completes_of_writeResult (he s) fun _ => hc
  · exact exec_of_irreversibleForm hd ((irreversibleForm_eq_true_iff i).2 hc)

theorem selfInverseEffect_of_writeResult {i : Instr} {rd : Reg} {v : State → Word}
    (he : ∀ s, exec i s = writeResult i rd (v s) s) : SelfInverseEffect i rd v (IrreversibleForm i) :=
  registerEffect_of_writeResult he (fun _ _ => rfl) fun _ _ => rfl

/-! ## What the written register holds (R114) -/

section
variable {rd : Reg} {a b c : Word} {s t : State}

/-- A sum is the true sum modulo 4096 in both readings. -/
theorem WritesOnly.sum (h : WritesOnly rd (a + b) s t) :
    (t.getReg rd).toNat = (a.toNat + b.toNat) % 4096 ∧ (t.getReg rd).toInt = (a.toInt + b.toInt).bmod 4096 := by
  rw [h.value]
  exact ⟨BitVec.toNat_add a b, BitVec.toInt_add a b⟩

/-- A difference is the true difference modulo 4096 in both readings. -/
theorem WritesOnly.difference (h : WritesOnly rd (a - b) s t) :
    (t.getReg rd).toNat = (a.toNat + (4096 - b.toNat)) % 4096 ∧
      (t.getReg rd).toInt = (a.toInt - b.toInt).bmod 4096 := by
  rw [h.value, Nat.add_comm]
  exact ⟨BitVec.toNat_sub a b, BitVec.toInt_sub⟩

theorem WritesOnly.xor_bits (h : WritesOnly rd (a ^^^ b) s t) (k : Nat) :
    (t.getReg rd).getLsbD k = (a.getLsbD k ^^ b.getLsbD k) := by
  rw [h.value, BitVec.getLsbD_xor]

theorem WritesOnly.and_xor_bits (h : WritesOnly rd ((a &&& b) ^^^ c) s t) (k : Nat) :
    (t.getReg rd).getLsbD k = ((a.getLsbD k && b.getLsbD k) ^^ c.getLsbD k) := by
  rw [h.xor_bits, BitVec.getLsbD_and]

theorem WritesOnly.or_xor_bits (h : WritesOnly rd ((a ||| b) ^^^ c) s t) (k : Nat) :
    (t.getReg rd).getLsbD k = ((a.getLsbD k || b.getLsbD k) ^^ c.getLsbD k) := by
  rw [h.xor_bits, BitVec.getLsbD_or]

end

end Sys2Proof.Claims
end

section
/-! PROOFS. The statements of 41_inplace.md. -/

namespace Sys2Proof.Claims

open Sys2Proof.Machine

/-- Settles O8: ADD writes the sum of its direction, and its irreversible form is `rsd = rt`. -/
theorem addEffect : Obligations.AddEffect := fun _ _ =>
  registerEffect_of_writeResult (fun _ => rfl) (fun _ hd => by rw [hd, stepSum_forward])
    fun _ hd => by rw [hd, stepSum_reverse]

/-- Settles O9: ADDI completes in both directions and writes the sum of its direction. -/
theorem addiEffect : Obligations.AddiEffect := by
  refine fun rsd imm s => ⟨fun hd => ?_, fun hd => ?_⟩
  · simpa only [hd, stepSum_forward] using exec_addi rsd imm s
  · simpa only [hd, stepSum_reverse] using exec_addi rsd imm s

/-- Settles O10: XOR writes the same value in both directions, and its irreversible form is `rsd = rs`. -/
theorem xorEffect : Obligations.XorEffect := fun _ _ => selfInverseEffect_of_writeResult fun _ => rfl

/-- Settles O11: XORI completes and writes the same value in both directions. -/
theorem xoriEffect : Obligations.XoriEffect := fun rsd imm s =>
  ⟨fun _ => exec_xori rsd imm s, fun _ => exec_xori rsd imm s⟩

/-- Settles O27: each instruction completes and writes one register, whose content the sums, the differences and the bitwise
operations describe. -/
theorem integerArithmeticLaws : Obligations.IntegerArithmeticLaws := by
  refine ⟨fun d t s hd => ?_, fun d m s hd => ?_, fun d t s hd hne => ?_, fun d m s hd => ?_, fun d t s h => ?_,
    fun d m s => ?_, fun d r t s h => ?_, fun d r m s h => ?_, fun d r t s h => ?_, fun d r m s h => ?_⟩
  · obtain ⟨hforward, -, -⟩ := addEffect d t s
    exact (hforward hd).imp fun _ => .imp_right WritesOnly.sum
  · obtain ⟨hforward, -⟩ := addiEffect d m s
    exact (hforward hd).imp fun _ => .imp_right WritesOnly.sum
  · obtain ⟨-, hreverse, -⟩ := addEffect d t s
    exact (hreverse hd hne).imp fun _ => .imp_right WritesOnly.difference
  · obtain ⟨-, hreverse⟩ := addiEffect d m s
    exact (hreverse hd).imp fun _ => .imp_right WritesOnly.difference
  · exact (completes_of_writeResult rfl h).imp fun _ => .imp_right WritesOnly.xor_bits
  · exact (exec_xori d m s).imp fun _ => .imp_right WritesOnly.xor_bits
  · have hc : s.dir = .reverse → ¬ (d = r ∨ d = t) := fun hd => not_or.2 (h hd)
    exact (completes_of_writeResult rfl hc).imp fun _ => .imp_right WritesOnly.and_xor_bits
  · exact (completes_of_writeResult rfl h).imp fun _ => .imp_right WritesOnly.and_xor_bits
  · have hc : s.dir = .reverse → ¬ (d = r ∨ d = t) := fun hd => not_or.2 (h hd)
    exact (completes_of_writeResult rfl hc).imp fun _ => .imp_right WritesOnly.or_xor_bits
  · exact (completes_of_writeResult rfl h).imp fun _ => .imp_right WritesOnly.or_xor_bits

end Sys2Proof.Claims
end

section
/-! PROOFS. The statements of 42_logic_xor.md, on the effect of an instruction that exclusive-ors a value into its
destination. -/

namespace Sys2Proof.Claims

open Sys2Proof.Machine

/-- The value accumulated is the same in both directions, so the effect is self-inverse. -/
theorem selfInverseEffect_of_accumulate {i : Instr} {rd : Reg} {w : State → Word}
    (he : ∀ s, exec i s = accumulate i rd (w s) s) :
    SelfInverseEffect i rd (fun s => w s ^^^ s.getReg rd) (IrreversibleForm i) :=
  selfInverseEffect_of_writeResult fun s => (he s).trans (accumulate_eq i rd (w s) s)

/-- Settles O12: ANDX accumulates `x[rs] & x[rt]`, and its irreversible form is `rd = rs` or `rd = rt`. -/
theorem andxEffect : Obligations.AndxEffect := fun _ _ _ => selfInverseEffect_of_accumulate fun _ => rfl

/-- Settles O13: ANDIX accumulates `x[rs] & imm`, and its irreversible form is `rd = rs`. -/
theorem andixEffect : Obligations.AndixEffect := fun _ _ _ => selfInverseEffect_of_accumulate fun _ => rfl

/-- Settles O14: ORX accumulates `x[rs] | x[rt]`, and its irreversible form is `rd = rs` or `rd = rt`. -/
theorem orxEffect : Obligations.OrxEffect := fun _ _ _ => selfInverseEffect_of_accumulate fun _ => rfl

/-- Settles O15: ORIX accumulates `x[rs] | imm`, and its irreversible form is `rd = rs`. -/
theorem orixEffect : Obligations.OrixEffect := fun _ _ _ => selfInverseEffect_of_accumulate fun _ => rfl

end Sys2Proof.Claims
end

section
/-! PROOFS. The rotations and shifts by one that 43_shift_rotate.md writes as concatenated bits, as the library's, and what
twelve rotations make of a word. -/

namespace Sys2Proof.Machine

/-- Bit `k` of a word rotated left by one was the bit below it, counted modulo 12. -/
theorem getLsbD_rotateLeftOne (v : Word) {k : Nat} (hk : k < 12) :
    (rotateLeftOne v).getLsbD k = v.getLsbD ((k + 11) % 12) := by
  rw [rotateLeftOne, BitVec.getLsbD_append]
  split
  · next h =>
    obtain rfl : k = 0 := by omega
    simp
  · next h =>
    have hbelow : (k + 11) % 12 = k - 1 := by omega
    simp [hbelow, show k - 1 < 11 by omega]

theorem rotateLeftOne_eq_rotateLeft (v : Word) : rotateLeftOne v = v.rotateLeft 1 := by
  refine BitVec.eq_of_getLsbD_eq fun k hk => ?_
  rw [getLsbD_rotateLeftOne v hk, BitVec.getLsbD_rotateLeft_of_le (by decide)]
  by_cases h : k < 1
  · obtain rfl : k = 0 := by omega
    simp
  · have hbelow : (k + 11) % 12 = k - 1 := by omega
    simp [h, hk, hbelow]

theorem rotateRightOne_eq_rotateRight (v : Word) : rotateRightOne v = v.rotateRight 1 := by
  refine BitVec.eq_of_getLsbD_eq fun k hk => ?_
  rw [rotateRightOne, BitVec.getLsbD_append, BitVec.getLsbD_rotateRight_of_lt (by decide)]
  by_cases h : k < 11
  · simp [h]
  · obtain rfl : k = 11 := by omega
    simp

theorem shiftLeftOne_eq_shiftLeft (v : Word) : shiftLeftOne v = v <<< 1 :=
  (BitVec.shiftLeft_eq_concat_of_lt (x := v) (n := 1) (by decide)).symm

theorem shiftRightArithOne_eq_sshiftRight (v : Word) : shiftRightArithOne v = v.sshiftRight 1 := by
  refine BitVec.eq_of_getLsbD_eq fun k hk => ?_
  rw [shiftRightArithOne, BitVec.getLsbD_append, BitVec.getLsbD_sshiftRight]
  by_cases h : k < 11
  · simp [h, Nat.not_le.2 hk, show k + 1 < 12 by omega, Nat.add_comm 1 k]
  · obtain rfl : k = 11 := by omega
    simp [BitVec.msb_eq_getLsbD_last]

/-! ## Rotating again and again -/

theorem getLsbD_iterate_rotateLeftOne (n : Nat) (v : Word) {k : Nat} (hk : k < 12) :
    (rotateLeftOne^[n] v).getLsbD k = v.getLsbD ((k + 11 * n) % 12) := by
  induction n generalizing v with
  | zero => simp [Nat.mod_eq_of_lt hk]
  | succ n ih =>
    rw [Function.iterate_succ_apply, ih, getLsbD_rotateLeftOne v (Nat.mod_lt _ (by decide))]
    congr 1
    omega

theorem rotateLeftOne_twelve_times (v : Word) : rotateLeftOne^[12] v = v :=
  BitVec.eq_of_getLsbD_eq fun k hk => by rw [getLsbD_iterate_rotateLeftOne 12 v hk]; congr 1; omega

/-- Twelve rotations to the right are undone by twelve to the left, which change nothing. -/
theorem rotateRightOne_twelve_times (v : Word) : rotateRightOne^[12] v = v :=
  calc rotateRightOne^[12] v
      = rotateLeftOne^[12] (rotateRightOne^[12] v) := (rotateLeftOne_twelve_times _).symm
    _ = v := Function.LeftInverse.iterate rotateLeftOne_rotateRightOne 12 v

theorem stepRotateLeft_twelve_times (d : Direction) (v : Word) : (stepRotateLeft d)^[12] v = v := by
  cases d
  · exact rotateLeftOne_twelve_times v
  · exact rotateRightOne_twelve_times v

/-- RR is RL of the other direction. -/
theorem stepRotateRight_eq_toggle (d : Direction) : stepRotateRight d = stepRotateLeft d.toggle := by
  cases d <;> rfl

theorem stepRotateRight_stepRotateLeft (d : Direction) (v : Word) : stepRotateRight d (stepRotateLeft d v) = v := by
  rw [stepRotateRight_eq_toggle, stepRotateLeft_toggle]

theorem stepRotateLeft_stepRotateRight (d : Direction) (v : Word) : stepRotateLeft d (stepRotateRight d v) = v := by
  simpa [stepRotateRight_eq_toggle] using stepRotateLeft_toggle d.toggle v

end Sys2Proof.Machine
end

section
/-! PROOFS. Instructions that each rewrite one and the same register, one after the other: the register holds the composition
of what each makes of it. -/

namespace Sys2Proof.Claims

open Sys2Proof.Machine

/-- In the direction `d` the instructions complete, replace `x[r]` by `f` of it, and leave every other register and every
data word. -/
def Rewrites (r : Reg) (d : Direction) (is : List Instr) (f : Word → Word) : Prop :=
  ∀ s : State, s.dir = d →
    ∃ t, execAll is s = .next t ∧ t.getReg r = f (s.getReg r) ∧ OtherRegs r s t ∧ SameData s t

variable {r : Reg} {d : Direction} {is : List Instr} {f g : Word → Word}

theorem Rewrites.nil : Rewrites r d [] id := fun s _ => ⟨s, rfl, rfl, fun _ _ => rfl, fun _ => rfl⟩

/-- One more instruction in front; since it keeps the direction, the rest runs in the direction it started in. -/
theorem Rewrites.cons {i : Instr}
    (hi : ∀ s : State, s.dir = d → ∃ t, exec i s = .next t ∧ WritesOnly r (f (s.getReg r)) s t)
    (his : Rewrites r d is g) : Rewrites r d (i :: is) (g ∘ f) := by
  intro s hd
  obtain ⟨t, hexec, ht⟩ := hi s hd
  obtain ⟨u, hrest, hvalue, hothers, hdata⟩ := his t (ht.dir.trans hd)
  refine ⟨u, (execAll_cons_of_next hexec is).trans hrest, ?_, ht.others.trans hothers, fun a => ?_⟩
  · rw [hvalue, ht.value, Function.comp_apply]
  · rw [hdata, ht.data]

/-- Where the composition is the identity, every register is as it was. -/
theorem Rewrites.restores (h : Rewrites r d is f) (hf : ∀ v, f v = v) {s : State} (hd : s.dir = d) :
    ∃ t, execAll is s = .next t ∧ (∀ q, t.getReg q = s.getReg q) ∧ SameData s t := by
  obtain ⟨t, hexec, hvalue, hothers, hdata⟩ := h s hd
  refine ⟨t, hexec, fun q => ?_, hdata⟩
  by_cases hq : q = r
  · rw [hq, hvalue, hf]
  · exact hothers q hq

/-! ## RL and RR -/

theorem exec_rl {s : State} (hd : s.dir = d) :
    ∃ t, exec (.rl r) s = .next t ∧ WritesOnly r (stepRotateLeft d (s.getReg r)) s t :=
  hd ▸ writeResult_of_pass r _ fun _ => rfl

theorem exec_rr {s : State} (hd : s.dir = d) :
    ∃ t, exec (.rr r) s = .next t ∧ WritesOnly r (stepRotateRight d (s.getReg r)) s t :=
  hd ▸ writeResult_of_pass r _ fun _ => rfl

theorem rewrites_rl_rr : Rewrites r d [.rl r, .rr r] (stepRotateRight d ∘ stepRotateLeft d) :=
  .cons (fun _ => exec_rl) (.cons (fun _ => exec_rr) .nil)

theorem rewrites_rr_rl : Rewrites r d [.rr r, .rl r] (stepRotateLeft d ∘ stepRotateRight d) :=
  .cons (fun _ => exec_rr) (.cons (fun _ => exec_rl) .nil)

theorem rewrites_replicate_rl (n : Nat) : Rewrites r d (List.replicate n (.rl r)) (stepRotateLeft d)^[n] := by
  induction n with
  | zero => exact .nil
  | succ n ih => exact .cons (fun _ => exec_rl) ih

end Sys2Proof.Claims
end

section
/-! PROOFS. The statements of 43_shift_rotate.md. -/

namespace Sys2Proof.Claims

open Sys2Proof.Machine

/-- Settles O48: a rotation and the opposite one, or twelve of one kind, compose to the identity. -/
theorem rotatesUndoEachOther : Obligations.RotatesUndoEachOther := by
  intro r s is his
  simp only [List.mem_cons, List.not_mem_nil, or_false] at his
  obtain rfl | rfl | rfl := his
  · exact rewrites_rl_rr.restores (stepRotateRight_stepRotateLeft s.dir) rfl
  · exact rewrites_rr_rl.restores (stepRotateLeft_stepRotateRight s.dir) rfl
  · exact (rewrites_replicate_rl 12).restores (stepRotateLeft_twelve_times s.dir) rfl

/-- Settles O16: RL writes the rotation of its direction, and the rotations are the library's. -/
theorem rlEffect : Obligations.RlEffect := by
  refine fun rsd s => ⟨fun hd => ?_, fun hd => ?_⟩
  · simpa only [stepRotateLeft, rotateLeftOne_eq_rotateLeft] using exec_rl hd
  · simpa only [stepRotateLeft, rotateRightOne_eq_rotateRight] using exec_rl hd

/-- Settles O17: RR writes the rotation of its direction, and the rotations are the library's. -/
theorem rrEffect : Obligations.RrEffect := by
  refine fun rsd s => ⟨fun hd => ?_, fun hd => ?_⟩
  · simpa only [stepRotateRight, rotateRightOne_eq_rotateRight] using exec_rr hd
  · simpa only [stepRotateRight, rotateLeftOne_eq_rotateLeft] using exec_rr hd

/-- Settles O18: SLLX accumulates `x[rs]` shifted left, and its irreversible form is `rd = rs`. -/
theorem sllxEffect : Obligations.SllxEffect := fun _ rs =>
  selfInverseEffect_of_accumulate (w := fun s => s.getReg rs <<< 1) fun s => by
    rw [← shiftLeftOne_eq_shiftLeft]; rfl

/-- Settles O19: SRAX accumulates `x[rs]` shifted right with its sign, and its irreversible form is `rd = rs`. -/
theorem sraxEffect : Obligations.SraxEffect := fun _ rs =>
  selfInverseEffect_of_accumulate (w := fun s => (s.getReg rs).sshiftRight 1) fun s => by
    rw [← shiftRightArithOne_eq_sshiftRight]; rfl

/-- Accumulated into a clear register a value stands there alone. -/
theorem SelfInverseEffect.value_of_clear {i : Instr} {rd : Reg} {w : State → Word} {clash : Prop}
    (h : SelfInverseEffect i rd (fun s => w s ^^^ s.getReg rd) clash) {s : State} (hd : s.dir = .forward)
    (hclear : s.getReg rd = 0) : ∃ t, exec i s = .next t ∧ t.getReg rd = w s := by
  obtain ⟨hforward, -, -⟩ := h s
  obtain ⟨t, hexec, ht⟩ := hforward hd
  refine ⟨t, hexec, ht.value.trans ?_⟩
  dsimp only
  rw [hclear]
  exact BitVec.xor_zero

/-- Settles O49: the clear register holds the shifted word, which as a number is the double or the floor of the half. -/
theorem shiftsDoubleAndHalve : Obligations.ShiftsDoubleAndHalve := by
  refine fun rd rs s hd _ hclear => ⟨?sllx, ?srax⟩
  case sllx =>
    obtain ⟨t, hexec, ht⟩ := (sllxEffect rd rs).value_of_clear hd hclear
    exact ⟨t, hexec, by rw [ht, BitVec.toNat_shiftLeft, Nat.shiftLeft_eq, Nat.mul_comm]⟩
  case srax =>
    obtain ⟨t, hexec, ht⟩ := (sraxEffect rd rs).value_of_clear hd hclear
    exact ⟨t, hexec, by rw [ht, BitVec.toInt_sshiftRight, Int.shiftRight_eq_div_pow]; rfl⟩

end Sys2Proof.Claims
end

section
/-! PROOFS. The twins of a branch: three words that agree in every bit but `ir[16]` are two words at most, so the pairing test
accepts the words of the two twins and no others (44_branch.md R141). -/

namespace Sys2Proof.Machine

theorem getLsbD_reversingBit (k : Nat) : reversingBit.getLsbD k = decide (k = 16) := by
  have hpow : reversingBit = BitVec.twoPow 20 16 := by decide
  rw [hpow, BitVec.getLsbD_twoPow]
  simp [eq_comm]

theorem eq_of_or_reversingBit_eq {u v : IWord} (h : u ||| reversingBit = v ||| reversingBit)
    (h16 : u.getLsbD 16 = v.getLsbD 16) : u = v := by
  refine BitVec.eq_of_getLsbD_eq fun k _ => ?_
  by_cases hk : k = 16
  · rw [hk, h16]
  · simpa [getLsbD_reversingBit, hk] using congrArg (·.getLsbD k) h

/-- The words that agree with two different ones but for `ir[16]` are those two: `ir[16]` has only two values. -/
theorem or_reversingBit_eq_iff {u v w : IWord} (h : u ||| reversingBit = v ||| reversingBit) (hne : u ≠ v) :
    w ||| reversingBit = u ||| reversingBit ↔ w = u ∨ w = v := by
  constructor
  · intro hw
    have huv : u.getLsbD 16 ≠ v.getLsbD 16 := mt (eq_of_or_reversingBit_eq h) hne
    by_cases hwu : w.getLsbD 16 = u.getLsbD 16
    · exact .inl (eq_of_or_reversingBit_eq hw hwu)
    · exact .inr (eq_of_or_reversingBit_eq (hw.trans h) ((Bool.eq_not.2 hwu).trans (Bool.eq_not.2 huv.symm).symm))
  · rintro (rfl | rfl)
    · rfl
    · exact h.symm

theorem paired_eq_true_iff {s : State} {own : IWord} {T : Addr} :
    s.paired own T = true ↔ ∃ w, s.fetch T = some w ∧ w ||| reversingBit = own ||| reversingBit := by
  unfold State.paired
  cases s.fetch T <;> simp

end Sys2Proof.Machine

namespace Sys2Proof.Claims

open Sys2Proof.Machine

theorem decode_eq_ok_iff {ir : IWord} {i : Instr} (hi : i.wf = true) : decode ir = .ok i ↔ ir = encode i :=
  ⟨fun h => (wf_and_encode_of_decode h).2.symm, fun h => h ▸ decode_encode hi⟩

theorem encode_ne {i j : Instr} (hi : i.wf = true) (hj : j.wf = true) (hne : i ≠ j) : encode i ≠ encode j := fun h =>
  hne (Except.ok.inj ((decode_encode hi).symm.trans ((decode_eq_ok_iff hj).2 h)))

/-- The pairing test of a word that agrees with those of two instructions but for `ir[16]` asks for one of the two. -/
theorem paired_iff_holdsOneOf {own : IWord} {i j : Instr} (hi : i.wf = true) (hj : j.wf = true) (hne : i ≠ j)
    (hown : encode i ||| reversingBit = own ||| reversingBit)
    (htwin : encode i ||| reversingBit = encode j ||| reversingBit) (s : State) (T : Addr) :
    s.paired own T = true ↔ HoldsOneOf [i, j] s T := by
  simp only [paired_eq_true_iff, HoldsOneOf, ← hown, or_reversingBit_eq_iff htwin (encode_ne hi hj hne),
    List.exists_mem_cons_iff, decode_eq_ok_iff hi, decode_eq_ok_iff hj, List.not_mem_nil, false_and, exists_false, or_false]

theorem paired_iff_twin {i : Instr} (hb : (branchReg i).isSome = true) (s : State) (T : Addr) :
    s.paired (encode i) T = true ↔ HoldsOneOf (twinsOf i) s T := by
  cases i
  case bez ra rb | rbez ra rb | bltz ra rb | rbltz ra rb =>
    refine paired_iff_holdsOneOf ?_ ?_ ?_ ?_ ?_ s T
    · rfl
    · rfl
    · nofun
    · exact packImm_or_reversingBit (by decide) ra rb 0
    · exact packImm_or_reversingBit (by decide) ra rb 0
  all_goals cases hb

end Sys2Proof.Claims
end

section
/-! PROOFS. The whole effect of a branch, from its condition: what it answers where it is no irreversible form undone, and
the frames of the two states it can answer (44_branch.md R140 to R145). -/

namespace Sys2Proof.Claims

open Sys2Proof.Machine

theorem notTaken_advance (s : State) : NotTaken s s.advance where
  regs _ := rfl
  data _ := rfl
  dir := rfl
  pc := beside_nextAddr _ _
  run := ⟨rfl, rfl, rfl, rfl⟩

theorem taken_jumped_advance (reverses : Bool) (ra : Reg) (s : State) :
    Taken ra reverses s (jumped reverses ra s).advance where
  register := jumped_getReg_self reverses ra s
  otherRegs _ hr := jumped_getReg_other reverses ra s hr
  data _ := by cases reverses <;> rfl
  keeps := by rintro rfl; rfl
  toggles := by rintro rfl; exact toggle_ne s.dir
  pc := jumped_pc reverses ra s ▸ beside_nextAddr _ _
  run := by cases reverses <;> exact ⟨rfl, rfl, rfl, rfl⟩

/-- What a branch answers past the check for an irreversible form. -/
theorem exec_of_pass {i : Instr} {ra rb : Reg} {holds : Word → Bool} {s : State} (h : BranchesOn i ra rb holds)
    (hpass : s.dir = .reverse → ¬ IrreversibleForm i) :
    exec i s =
      if taken i s then
        if s.paired (encode i) (s.getReg ra) then .next (jumped (reversing i) ra s).advance
        else .fault (.unpairedBranchTarget s.pc (s.getReg ra))
      else .next s.advance :=
  (h.exec_eq s).trans <| unlessIrreversible_pass _ fun hd =>
    Bool.eq_false_iff.2 (mt (irreversibleForm_eq_true_iff i).1 (hpass hd))

theorem branchEffect_of_branchesOn {i : Instr} {ra rb : Reg} {holds : Word → Prop} [DecidablePred holds]
    (h : BranchesOn i ra rb fun v => decide (holds v)) (hclash : IrreversibleForm i ↔ ra = rb) :
    BranchEffect i ra rb holds (twinsOf i) (reversing i) := by
  intro s
  have htwin := paired_iff_twin (i := i) (by simp [h.isBranch]) s (s.getReg ra)
  have htaken : taken i s = true ↔ holds (s.getReg rb) := by rw [h.taken_eq, decide_eq_true_iff]
  rw [ne_eq, ← hclash, ← htwin, ← htaken]
  refine ⟨fun hd hi => exec_of_irreversibleForm hd ((irreversibleForm_eq_true_iff i).2 hi), fun hpass ht => ?_,
    fun hpass ht hp => ?_, fun hpass ht hp => ?_⟩
  · exact ⟨_, (exec_of_pass h hpass).trans (if_neg ht), notTaken_advance s⟩
  · exact ⟨_, (exec_of_pass h hpass).trans ((if_pos ht).trans (if_pos hp)), taken_jumped_advance _ ra s⟩
  · exact (exec_of_pass h hpass).trans ((if_pos ht).trans (if_neg hp))

end Sys2Proof.Claims
end

section
/-! PROOFS. The statements of 44_branch.md. -/

namespace Sys2Proof.Claims

open Sys2Proof.Machine

/-- Settles O31: the words that agree with the branch's own but for `ir[16]` are those of its two twins. -/
theorem pairedTargetIsATwin : Obligations.PairedTargetIsATwin := fun _ s T hb => paired_iff_twin hb s T

/-- Settles O21: BEZ is the branch on a zero register that keeps the direction. -/
theorem bezEffect : Obligations.BezEffect := fun ra rb => branchEffect_of_branchesOn (branchesOn_bez ra rb) Iff.rfl

/-- Settles O22: BLTZ is the branch on a register below zero that keeps the direction. -/
theorem bltzEffect : Obligations.BltzEffect := fun ra rb => branchEffect_of_branchesOn (branchesOn_bltz ra rb) Iff.rfl

/-- Settles O23: RBEZ is the branch on a zero register that toggles the direction. -/
theorem rbezEffect : Obligations.RbezEffect := fun ra rb => branchEffect_of_branchesOn (branchesOn_rbez ra rb) Iff.rfl

/-- Settles O24: RBLTZ is the branch on a register below zero that toggles the direction. -/
theorem rbltzEffect : Obligations.RbltzEffect := fun ra rb => branchEffect_of_branchesOn (branchesOn_rbltz ra rb) Iff.rfl

end Sys2Proof.Claims
end

section
/-! PROOFS. The statement of 45_exchange.md. -/

namespace Sys2Proof.Claims

open Sys2Proof.Machine

/-- Settles O20: past the check EXCH completes with the exchange and its frame, and its irreversible form is
`exch = addr`. -/
theorem exchEffect : Obligations.ExchEffect := by
  refine fun e a s => ⟨fun hpass => exec_exch s hpass, fun hd hea => ?_⟩
  have hform : IrreversibleForm (.exch e a) := hea
  exact exec_of_irreversibleForm hd ((irreversibleForm_eq_true_iff _).2 hform)

end Sys2Proof.Claims
end

section
/-! PROOFS. The words the decoder refuses, as R173 lists them: what the tests of the zero field and of the two copies of `rsd`
refuse, and the fields they read as parts of the word's number. -/

namespace Sys2Proof

theorem exists_needZero_eq_error {z : Bool} {k : Except Illegal Instr} :
    (∃ e, needZero z k = .error e) ↔ z = false ∨ ∃ e, k = .error e := by
  cases z <;> simp [needZero]

theorem exists_needCopies_eq_error {ir : IWord} {k : Except Illegal Instr} :
    (∃ e, needCopies ir k = .error e) ↔ faField ir ≠ fbField ir ∨ ∃ e, k = .error e := by
  unfold needCopies
  split <;> simp_all

theorem fzField_eq_zero_iff (ir : IWord) : fzField ir = 0 ↔ ir.toNat % 2 ^ 6 = 0 := by
  rw [← BitVec.toNat_inj, fzField, BitVec.extractLsb'_toNat]
  rfl

theorem imm9Field_eq_zero_iff (ir : IWord) : imm9Field ir = 0 ↔ ir.toNat % 2 ^ 9 = 0 := by
  rw [← BitVec.toNat_inj, imm9Field, BitVec.extractLsb'_toNat]
  rfl

theorem faField_eq_fbField_iff (ir : IWord) :
    faField ir = fbField ir ↔ ir.toNat / 2 ^ 12 % 2 ^ 3 = ir.toNat / 2 ^ 9 % 2 ^ 3 := by
  simp only [faField, fbField, regOfBits, Fin.mk.injEq, BitVec.extractLsb'_toNat, Nat.shiftRight_eq_div_pow]

end Sys2Proof

namespace Sys2Proof.Claims

open Sys2Proof.Machine

theorem unassigned_of_ofBits_eq_none : ∀ b : BitVec 5, Opcode.ofBits b = none → b.toNat ∈ unassigned := by decide

end Sys2Proof.Claims
end

section
/-! PROOFS. What stops the cycle and the step, and the fault of a branch that is taken to a target without its twin. -/

namespace Sys2Proof.Claims

open Sys2Proof.Machine

/-! ## The cycle and the step -/

theorem cycle_of_no_word {s : State} (hf : s.fetch s.pc = none) : cycle s = .fault (.noInstruction s.pc) := by
  simp [cycle, hf]

theorem cycle_of_illegal {s : State} {ir : IWord} {e : Illegal} (hf : s.fetch s.pc = some ir) (hd : decode ir = .error e) :
    cycle s = .fault (.illegalInstruction s.pc ir) := by
  simp [cycle, hf, hd]

theorem step_of_atEnd {s : State} (hs : s.status = .running) (hend : AtEnd s) : step s = .next s.finish := by
  simp [step, runStep, hs, (endOfRun_eq_true_iff s).2 hend]

theorem step_eq_cycle_of_not_atEnd {s : State} (hs : s.status = .running) (hend : ¬ AtEnd s) : step s = cycle s :=
  step_eq_cycle hs (Bool.eq_false_iff.2 (mt (endOfRun_eq_true_iff s).1 hend))

theorem running_of_step_fault {s : State} {f : Fault} (h : step s = .fault f) : s.status = .running := by
  by_contra hs
  cases (step_of_not_running hs).symm.trans h

theorem statusStep_eq_settle_step (s : State) : statusStep s = s.settle (step s) := rfl

/-! ## A taken branch -/

section
variable {i : Instr} {s : State} {ra : Reg}

theorem exists_branchesOn_of_taken (hb : branchReg i = some ra) (ht : taken i s = true) :
    ∃ rb holds, BranchesOn i ra rb holds := by
  cases shape_of_instr i with
  | register h => exact absurd ht (by simp [h.notTaken])
  | exchange => cases hb
  | branch h =>
    obtain rfl := Option.some.inj (h.isBranch.symm.trans hb)
    exact ⟨_, _, h⟩

/-- Past the check for an irreversible form, only the twin at the target decides how a taken branch ends. -/
theorem exec_eq_unpairedBranchTarget_iff (hb : branchReg i = some ra) (hpass : ¬ (s.dir = .reverse ∧ IrreversibleForm i))
    (ht : taken i s = true) :
    exec i s = .fault (.unpairedBranchTarget s.pc (s.getReg ra)) ↔ ¬ HoldsOneOf (twinsOf i) s (s.getReg ra) := by
  obtain ⟨rb, holds, h⟩ := exists_branchesOn_of_taken hb ht
  rw [exec_of_pass h (not_and.1 hpass), if_pos ht, ← paired_iff_twin (by simp [hb])]
  split <;> simp_all

theorem not_irreversible_of_exec_eq_unpairedBranchTarget {a T : Addr}
    (h : exec i s = .fault (.unpairedBranchTarget a T)) : ¬ (s.dir = .reverse ∧ IrreversibleForm i) := by
  rintro ⟨hd, hi⟩
  cases (exec_of_irreversibleForm hd ((irreversibleForm_eq_true_iff i).2 hi)).symm.trans h

theorem taken_of_exec_eq_unpairedBranchTarget {a T : Addr} (h : exec i s = .fault (.unpairedBranchTarget a T)) :
    a = s.pc ∧ taken i s = true ∧ ∃ ra, branchReg i = some ra ∧ T = s.getReg ra := by
  obtain ⟨_, e⟩ | ⟨-, -, e⟩ | ⟨ra, hb, ht, e⟩ := exec_cases i s
  · cases e.symm.trans h
  · cases e.symm.trans h
  · cases e.symm.trans h
    exact ⟨rfl, ht, ra, hb, rfl⟩

end

end Sys2Proof.Claims
end

section
/-! PROOFS. The statements of 60_exceptions.md. -/

namespace Sys2Proof.Claims

open Sys2Proof.Machine

/-- Settles O6: opcode by opcode, the decoder makes the tests of R173's lists; the cycle faults on a word it refuses. -/
theorem illegalWordsExactly : Obligations.IllegalWordsExactly := by
  refine ⟨fun ir => ?_, fun s ir e hs hend hf hd =>
    (step_eq_cycle_of_not_atEnd hs hend).trans (cycle_of_illegal hf hd)⟩
  rw [← toNat_opField, ne_eq, ← fzField_eq_zero_iff, ne_eq, ← imm9Field_eq_zero_iff, ne_eq, ← faField_eq_fbField_iff]
  unfold decode
  cases ho : Opcode.ofBits (opField ir) with
  | none => exact iff_of_true ⟨_, rfl⟩ (.inl (unassigned_of_ofBits_eq_none _ ho))
  | some o =>
    rw [← bits_of_ofBits ho, or_iff_right (bits_not_unassigned o)]
    cases o
    case andix | orix => simp [Opcode.bits]
    case addi | xori => simp [Opcode.bits, exists_needCopies_eq_error]
    case add | xor | rl | rr => simp [Opcode.bits, exists_needZero_eq_error, exists_needCopies_eq_error]
    case andx | orx | sllx | srax | exch | bez | bltz | rbez | rbltz => simp [Opcode.bits, exists_needZero_eq_error]

/-- Settles O30: only a taken branch past the check for an irreversible form raises this fault, and it does so exactly when
its target holds no twin. -/
theorem unpairedBranchTargetExactly : Obligations.UnpairedBranchTargetExactly := by
  refine fun i s a T => ⟨fun h => ?_, ?_⟩
  · have hpass := not_irreversible_of_exec_eq_unpairedBranchTarget h
    obtain ⟨rfl, ht, ra, hb, rfl⟩ := taken_of_exec_eq_unpairedBranchTarget h
    exact ⟨⟨ra, hb, rfl⟩, rfl, ht, hpass, (exec_eq_unpairedBranchTarget_iff hb hpass ht).1 h⟩
  · rintro ⟨⟨ra, hb, rfl⟩, rfl, ht, hpass, htwin⟩
    exact (exec_eq_unpairedBranchTarget_iff hb hpass ht).2 htwin

/-- Settles O36: each clause is the end of the run, one branch of the cycle, or one fault of the instruction it executes. -/
theorem orderOfDetection : Obligations.OrderOfDetection := by
  intro s hs
  have hcycle := step_eq_cycle_of_not_atEnd hs
  refine ⟨step_of_atEnd hs, fun hend hf => ?noWord, fun ir e hend hf hd => ?illegal,
    fun ir i hend hf hd hrev hirr => ?irreversible, fun ir i ra hend hf hd hpass hb ht htwin => ?unpaired⟩
  case noWord => exact (hcycle hend).trans (cycle_of_no_word hf)
  case illegal => exact (hcycle hend).trans (cycle_of_illegal hf hd)
  case irreversible =>
    rw [hcycle hend, cycle_of_decode hf hd, exec_of_irreversibleForm hrev ((irreversibleForm_eq_true_iff i).2 hirr),
      (wf_and_encode_of_decode hd).2]
  case unpaired =>
    rw [hcycle hend, cycle_of_decode hf hd]
    exact (exec_eq_unpairedBranchTarget_iff hb hpass ht).2 htwin

/-- Settles O28: the three ways an instruction can end. -/
theorem instructionsNeverRefuse : Obligations.InstructionsNeverRefuse := fun i s =>
  (exec_cases i s).imp_right <| .imp (fun ⟨_, _, hfault⟩ => hfault) fun ⟨ra, _, _, hfault⟩ => ⟨s.getReg ra, hfault⟩

/-- Settles O38: a machine that is not running is refused, and a fault settles as the status. -/
theorem faultChangesOnlyTheStatus : Obligations.FaultChangesOnlyTheStatus := by
  intro s f h
  refine ⟨running_of_step_fault h, ?_⟩
  rw [statusStep_eq_settle_step, h]
  rfl

end Sys2Proof.Claims
end
